-- ==== Sys2Proof/Word.lean ====
section
/-! DEFINITION. The widths the engine's values have (00_scope.md R7, R9, R11): bytes, lanes and
command words. All values are unsigned bit vectors; their shifts are logical and drop the bits
shifted out (R11). -/

namespace Sys2Proof

/-- A byte: a state byte, an operand of a command, a RATE, SUFFIX or POS value (R9, R18 to R20). -/
abbrev Byte := BitVec 8

/-- A lane of the state: 64 bits (R7). -/
abbrev Lane := BitVec 64

/-- A command word or a status word: 32 bits (R9, R23, R38). -/
abbrev Word := BitVec 32

end Sys2Proof
end

