-- ==== Sys2Proof/Syntax.lean ====
section
/-! DEFINITION. The commands of the engine, one constructor for each row of spec/opcode_table.json
(30_encoding.md R39, R40). -/

namespace Sys2Proof

/-- A legal command, decoded. Its operands are unsigned bytes, neither sign-extended nor scaled (R39). -/
inductive Instr where
  /-- INIT: `rate` is operand A, the rate in bytes; `suffix` is operand B (41_sponge.md R59). -/
  | init (rate suffix : Byte)
  /-- ABSORB: `data` is operand A, the message byte (R60). -/
  | absorb (data : Byte)
  /-- FINAL: no operand (R61). -/
  | final
  /-- SQUEEZE: no operand (R62). -/
  | squeeze
  deriving DecidableEq, Repr

end Sys2Proof
end

