-- ==== Sys2Proof/Machine/AsmLine.lean ====
section
/-! DEFINITION. The lines of the assembler as terms: the four commands and the pseudo-instructions
(30_encoding.md R43 to R47). Operands are natural numbers here, since a line may write one that
fits no byte; `AsmLine.wellFormed` (WellFormed.lean) is the assembler's check. -/

namespace Sys2Proof.Machine

/-- The six standard variants of the pseudo-instructions (R46). -/
inductive Variant where
  | shake128
  | shake256
  | sha3_224
  | sha3_256
  | sha3_384
  | sha3_512
  deriving DecidableEq, Repr

/-- The operand `<bytes>` of ABSORBS, HASH and XOF: a quoted ASCII string or the digits after `0x` (R44). -/
inductive AsmBytes where
  | text (chars : List Char)
  | hex (digits : List Char)
  deriving DecidableEq, Repr

/-- One line of assembler, as written (R43 to R47). -/
inductive AsmLine where
  | init (rate suffix : Nat)
  | absorb (data : Nat)
  | final
  | squeeze
  | absorbs (bytes : AsmBytes)
  | squeezen (n : Nat)
  | variant (v : Variant)
  | hash (v : Variant) (bytes : AsmBytes)
  | xof (v : Variant) (bytes : AsmBytes) (n : Nat)
  deriving DecidableEq, Repr

end Sys2Proof.Machine
end

