-- ==== Sys2Proof/WellFormed.lean ====
section
/-! DEFINITION. Which terms are commands and which lines the assembler accepts.

A command has no check left to make: an `Instr` holds exactly the operand bytes of 30_encoding.md
R39, each of which may have every value (an INIT whose rate is out of range is a legal encoding,
R41, and faults when it executes). A line of assembler has the checks of R43, R44 and R47. -/

namespace Sys2Proof

/-- Every term of `Instr` has an encoding (R39, R41). -/
def Instr.wellFormed : Instr → Bool
  | .init _ _ => true
  | .absorb _ => true
  | .final => true
  | .squeeze => true

namespace Machine

/-- The SHA3 digests: the variants HASH takes (R47). -/
def Variant.isDigest : Variant → Bool
  | .shake128 => false
  | .shake256 => false
  | .sha3_224 => true
  | .sha3_256 => true
  | .sha3_384 => true
  | .sha3_512 => true

/-- A digit of a `0x` number. Both cases of the letters count: log entry 10. -/
def isHexDigit (c : Char) : Bool :=
  ('0'.toNat ≤ c.toNat && c.toNat ≤ '9'.toNat)
    || ('a'.toNat ≤ c.toNat && c.toNat ≤ 'f'.toNat)
    || ('A'.toNat ≤ c.toNat && c.toNat ≤ 'F'.toNat)

/-- The double quote, which opens and closes an ASCII string (R44). -/
def quoteChar : Char := '\x22'

/-- A byte string is ASCII text without a quote in it, or hexadecimal digits of an even number (R44). -/
def AsmBytes.wellFormed : AsmBytes → Bool
  | .text cs => cs.all fun c => decide (c.toNat < 128) && c != quoteChar
  | .hex ds => ds.all isHexDigit && ds.length % 2 == 0

/-- The lines the assembler accepts: "Each operand must fit in 8 bits (0 to 255), or the assembler
refuses the line" (R43), byte strings as R44 says, HASH of a digest and XOF of a SHAKE (R47). -/
def AsmLine.wellFormed : AsmLine → Bool
  | .init rate suffix => decide (rate < 256) && decide (suffix < 256)
  | .absorb data => decide (data < 256)
  | .final => true
  | .squeeze => true
  | .absorbs bytes => bytes.wellFormed
  | .squeezen _ => true
  | .variant _ => true
  | .hash v bytes => v.isDigest && bytes.wellFormed
  | .xof v bytes _ => !v.isDigest && bytes.wellFormed

end Machine

end Sys2Proof
end

