-- ==== Sys2Proof/Decode.lean ====
section
/-! DEFINITION. The command word: its fields, the decoder and the encoder (30_encoding.md R38 to
R42), and the opcode map as rows of match and mask (R40). Decoding reads the word and nothing else. -/

namespace Sys2Proof

/-- OP = cmd[3:0] (R38). -/
def cmdOp (w : Word) : BitVec 4 := w.extractLsb' 0 4

/-- Z1 = cmd[7:4] (R38). -/
def cmdZ1 (w : Word) : BitVec 4 := w.extractLsb' 4 4

/-- A = cmd[15:8] (R38). -/
def cmdA (w : Word) : Byte := w.extractLsb' 8 8

/-- B = cmd[23:16] (R38). -/
def cmdB (w : Word) : Byte := w.extractLsb' 16 8

/-- Z2 = cmd[31:24] (R38). -/
def cmdZ2 (w : Word) : Byte := w.extractLsb' 24 8

/-- Why a word is no command (R41). The engine does not tell these apart: each is refused with the
one cause ILLEGAL_COMMAND (60_exceptions.md R69). -/
inductive Illegal where
  /-- Z1 or Z2 is not zero. -/
  | reservedField
  /-- OP is 0x0 or 0x5 to 0xF. -/
  | unknownCode
  /-- An operand field the command does not use is not zero. -/
  | unusedOperand
  deriving DecidableEq, Repr

/-- What the decoder answers: a command, or Illegal (R42). -/
inductive Decoded where
  | legal (i : Instr)
  | illegal (why : Illegal)
  deriving DecidableEq, Repr

/-- The decoder, in the order of R42. -/
def decode (w : Word) : Decoded :=
  if cmdZ1 w ≠ 0 ∨ cmdZ2 w ≠ 0 then .illegal .reservedField
  else if cmdOp w = 1 then .legal (.init (cmdA w) (cmdB w))
  else if cmdOp w = 2 then
    if cmdB w = 0 then .legal (.absorb (cmdA w)) else .illegal .unusedOperand
  else if cmdOp w = 3 then
    if cmdA w = 0 ∧ cmdB w = 0 then .legal .final else .illegal .unusedOperand
  else if cmdOp w = 4 then
    if cmdA w = 0 ∧ cmdB w = 0 then .legal .squeeze else .illegal .unusedOperand
  else .illegal .unknownCode

/-- A command word of the given fields, the reserved ones zero (R38). -/
def packCommand (op : BitVec 4) (a b : Byte) : Word :=
  op.setWidth 32 ||| a.setWidth 32 <<< 8 ||| b.setWidth 32 <<< 16

/-- The encoder, from the bit patterns of R40. -/
def encode : Instr → Word
  | .init rate suffix => packCommand 1 rate suffix
  | .absorb data => packCommand 2 data 0
  | .final => packCommand 3 0 0
  | .squeeze => packCommand 4 0 0

/-- One row of the opcode map (R40). -/
structure OpcodeRow where
  mnemonic : String
  pattern : Word
  mask : Word
  deriving DecidableEq, Repr

/-- The opcode map (R40; spec/opcode_table.json). -/
def opcodeTable : List OpcodeRow :=
  [⟨"INIT", 0x00000001, 0xFF0000FF⟩,
   ⟨"ABSORB", 0x00000002, 0xFFFF00FF⟩,
   ⟨"FINAL", 0x00000003, 0xFFFFFFFF⟩,
   ⟨"SQUEEZE", 0x00000004, 0xFFFFFFFF⟩]

/-- "A word w is the command of a row exactly when (w & mask) = match" (R40). -/
def OpcodeRow.covers (r : OpcodeRow) (w : Word) : Bool := w &&& r.mask == r.pattern

/-- The mnemonic of a command (R40). -/
def Instr.mnemonic : Instr → String
  | .init _ _ => "INIT"
  | .absorb _ => "ABSORB"
  | .final => "FINAL"
  | .squeeze => "SQUEEZE"

/-- The command of a decoder's answer, if there is one. -/
def Decoded.instr? : Decoded → Option Instr
  | .legal i => some i
  | .illegal _ => none

/-- The decoder on a word as spec/opcode_table.json numbers its bits. A command is one 32-bit word
(R38), so the number is the word; one of more than 32 bits is no command. Log entry 11. -/
def decodeTableWord (nbits w : Nat) : Option Instr :=
  if w % 2 ^ nbits < 2 ^ 32 then (decode (BitVec.ofNat 32 (w % 2 ^ nbits))).instr? else none

end Sys2Proof
end

