-- ==== Sys2Proof/Machine/State.lean ====
section
/-! DEFINITION. The machine's state: the 1600-bit sponge state, the control registers and the fault
record (10_state.md R15 to R22), and the command channel with the responses delivered on it
(10_state.md R24, 70_reset_and_hazards.md R84, R85, R88). -/

namespace Sys2Proof.Machine

/-- The 1600-bit state S as 25 lanes; lane number n = x + 5y is A[x,y] and holds bytes S[8n] to
S[8n+7], least significant byte first (R15, R16). -/
abbrev Lanes := Vector Lane 25

/-- PHASE (R21). The value 3 is never held, so it has no constructor: log entry 5. -/
inductive Phase where
  | unconf
  | absorb
  | squeeze
  deriving DecidableEq, Repr

/-- CAUSE (R22, 60_exceptions.md R68). Codes 5 to 15 are never written, so they have no
constructor: log entry 5. -/
inductive Cause where
  | none
  | illegalCommand
  | illegalRate
  | notConfigured
  | wrongPhase
  deriving DecidableEq, Repr

/-- A response: the datum and STATUS after the command (R24). -/
structure Response where
  rdata : Byte
  rstatus : Word
  deriving DecidableEq, Repr

/-- What waits at the engine's inputs, one event a step. Log entries 2 and 3. -/
inductive Event where
  /-- A command word the host presents (70_reset_and_hazards.md R88). -/
  | command (w : Word)
  /-- Reset, between commands (R84). -/
  | reset
  /-- Reset while the engine performs the command word `w`: the command is abandoned (R85). -/
  | resetDuring (w : Word)
  deriving DecidableEq, Repr

/-- Why a step stops. -/
inductive Fault where
  /-- An access to S[i] with i above 199, which R12 does not give (it reads bytes 0 to 199). Raised
  by ABSORB, FINAL and SQUEEZE in states R25 rules out, and in no other. Safe: log entry 4. -/
  | byteIndexOutOfRange
  deriving DecidableEq, Repr

/-- Why the model gives no meaning. -/
inductive Refusal where
  /-- An instruction with no meaning yet. Raised by an arm of `exec` only; no arm does. Safe. -/
  | notModelled (mnemonic : String)
  /-- A platform has no engine of that number (60_exceptions.md R81). Raised by `platformStep`
  only, never by a step of one engine. Safe: log entry 7. -/
  | noSuchEngine
  deriving DecidableEq, Repr

/-- The state of one engine and its channel. What one permutation computes on its way is no part of
it (R27): log entry 6. -/
structure State where
  /-- S (R15 to R17). -/
  lanes : Lanes
  /-- RATE (R18). -/
  rate : Byte
  /-- SUFFIX (R19). -/
  suffix : Byte
  /-- POS (R20). -/
  pos : Byte
  /-- PHASE (R21). -/
  phase : Phase
  /-- FAULT (R22). -/
  fault : Bool
  /-- CAUSE (R22). -/
  cause : Cause
  /-- The events presented and not yet accepted, oldest first (R88). Not a register: log entry 2. -/
  channel : List Event
  /-- The responses delivered, oldest first (R24, R35). Not a register: log entry 2. -/
  responses : List Response
  deriving DecidableEq, Repr

/-- The all-zero state, 0^1600. -/
def Lanes.zero : Lanes := Vector.replicate 25 0

/-- The machine right after reset (70_reset_and_hazards.md R84), with nothing presented and no
response delivered. -/
def State.reset : State where
  lanes := Lanes.zero
  rate := 0
  suffix := 0
  pos := 0
  phase := .unconf
  fault := false
  cause := .none
  channel := []
  responses := []

end Sys2Proof.Machine
end

