-- ==== Sys2Proof/Machine/Flags.lean ====
section
/-! DEFINITION. The STATUS word: a view of the registers with no storage of its own (10_state.md R23). -/

namespace Sys2Proof.Machine

/-- The code of PHASE (R21). -/
def Phase.code : Phase → BitVec 2
  | .unconf => 0
  | .absorb => 1
  | .squeeze => 2

/-- The code of CAUSE (60_exceptions.md R68). -/
def Cause.code : Cause → BitVec 4
  | .none => 0
  | .illegalCommand => 1
  | .illegalRate => 2
  | .notConfigured => 3
  | .wrongPhase => 4

/-- STATUS (R23): PHASE [1:0], FAULT [2], bit 3 zero, CAUSE [7:4], POS [15:8], RATE [23:16],
SUFFIX [31:24]. -/
def State.status (s : State) : Word :=
  s.phase.code.setWidth 32
    ||| (BitVec.ofBool s.fault).setWidth 32 <<< 2
    ||| s.cause.code.setWidth 32 <<< 4
    ||| s.pos.setWidth 32 <<< 8
    ||| s.rate.setWidth 32 <<< 16
    ||| s.suffix.setWidth 32 <<< 24

end Sys2Proof.Machine
end

