-- ==== Sys2Proof/Machine/Operands.lean ====
section
/-! DEFINITION. The two views of the sponge state and the operand conditions of the commands
(10_state.md R16, R17; 20_memory.md R30, R31; 41_sponge.md R59, R61). -/

namespace Sys2Proof.Machine

/-- Lane number n = x + 5·y, with x and y taken mod 5 (R16, R17). -/
def laneIndex (x y : Nat) : Fin 25 := ⟨x % 5 + 5 * (y % 5), by omega⟩

/-- A[x,y] (R12, R16). -/
def laneAt (A : Lanes) (x y : Nat) : Lane := A[laneIndex x y]

/-- A[x,y] <- v (R12, R16). -/
def writeLane (A : Lanes) (x y : Nat) (v : Lane) : Lanes := A.set (laneIndex x y) v

/-- The state whose lane A[x,y] is `f x y`, all lanes computed at once. -/
def lanesOf (f : Nat → Nat → Lane) : Lanes := Vector.ofFn fun n => f (n.val % 5) (n.val / 5)

/-- The number of the lane that holds S[i], `i div 8` (R16). -/
def laneOfByte (i : Fin 200) : Fin 25 := ⟨i.val / 8, by omega⟩

/-- The place of S[i]'s bit 0 in its lane, `8·(i mod 8)` (R16). -/
def shiftOfByte (i : Fin 200) : Nat := 8 * (i.val % 8)

/-- S[i] (R12, R16). -/
def byteAt (A : Lanes) (i : Fin 200) : Byte := A[laneOfByte i].extractLsb' (shiftOfByte i) 8

/-- A lane with the eight bits from `k` up replaced by `v`. -/
def insertByte (l : Lane) (k : Nat) (v : Byte) : Lane :=
  l &&& ~~~((0xFF : Lane) <<< k) ||| v.setWidth 64 <<< k

/-- S[i] <- v: changes bits 8·(i mod 8) to 8·(i mod 8)+7 of lane number i div 8 (R16). -/
def writeByte (A : Lanes) (i : Fin 200) (v : Byte) : Lanes :=
  A.set (laneOfByte i) (insertByte A[laneOfByte i] (shiftOfByte i) v)

/-- S[i] <- S[i] ^ v (R60, R61). -/
def xorByte (A : Lanes) (i : Fin 200) (v : Byte) : Lanes := writeByte A i (byteAt A i ^^^ v)

/-- The rates INIT accepts: 1 to 200 (R59, 60_exceptions.md R70). -/
def rateLegal (a : Byte) : Bool := a != 0 && decide (a.toNat ≤ 200)

/-- SUFFIX[7] = 1 and POS = RATE − 1: when FINAL permutes before the last padding bit (R61). -/
def prePermutes (s : State) : Bool := s.suffix[7] && s.pos == s.rate - 1

end Sys2Proof.Machine
end

