-- ==== Sys2Proof/Machine/Permutation.lean ====
section
/-! DEFINITION. The permutation engine, Keccak-f[1600] (40_permutation.md R48 to R58). Each
transform follows the pseudocode of its rule: rho+pi is the walk of R50, iota the LFSR of R54 and
R55. The closed form of R52 and the tables of R51 and R56, which the spec says are the same
functions, stand beside them under names of their own. x and y arithmetic is mod 5. -/

namespace Sys2Proof.Machine

/-- ROTL64(v, o) (R48): o taken mod 64, and o mod 64 = 0 returns v unchanged. -/
def rotl64 (v : Lane) (o : Nat) : Lane :=
  if o % 64 = 0 then v else v <<< (o % 64) ||| v >>> (64 - o % 64)

/-- C[x], the parity of column x (R49). -/
def columnParity (A : Lanes) (x : Nat) : Lane :=
  laneAt A x 0 ^^^ laneAt A x 1 ^^^ laneAt A x 2 ^^^ laneAt A x 3 ^^^ laneAt A x 4

/-- D[x] = C[x−1] ^ ROTL64(C[x+1], 1) (R49). -/
def thetaEffect (A : Lanes) (x : Nat) : Lane :=
  columnParity A ((x + 4) % 5) ^^^ rotl64 (columnParity A ((x + 1) % 5)) 1

/-- Theta (R49): every D comes from the lanes before any of them changes. -/
def theta (A : Lanes) : Lanes := lanesOf fun x y => laneAt A x y ^^^ thetaEffect A x

/-- The scan state of one rho+pi walk, local to one round (R50, 10_state.md R27). -/
structure WalkState where
  x : Nat
  y : Nat
  current : Lane
  acc : Nat
  lanes : Lanes
  deriving DecidableEq, Repr

/-- Step t of the walk (R50). -/
def walkStep (w : WalkState) (t : Nat) : WalkState where
  acc := w.acc + (t + 1)
  x := w.y
  y := (2 * w.x + 3 * w.y) % 5
  current := laneAt w.lanes w.y ((2 * w.x + 3 * w.y) % 5)
  lanes := writeLane w.lanes w.y ((2 * w.x + 3 * w.y) % 5) (rotl64 w.current (w.acc + (t + 1)))

/-- Where the walk starts, in every round: lane (1,0), the offset 0 (R50). -/
def walkStart (A : Lanes) : WalkState where
  x := 1
  y := 0
  current := laneAt A 1 0
  acc := 0
  lanes := A

/-- Rho+pi: the 24 steps of the walk (R50). -/
def rhoPi (A : Lanes) : Lanes := ((List.range 24).foldl walkStep (walkStart A)).lanes

/-- The offsets rot[x,y] (R51), the row of each x in order of y. -/
def rhoOffsetTable : List (List Nat) :=
  [[0, 36, 3, 41, 18],
   [1, 44, 10, 45, 2],
   [62, 6, 43, 15, 61],
   [28, 55, 25, 21, 56],
   [27, 20, 39, 8, 14]]

/-- rot[x,y] (R51). -/
def rhoOffset (x y : Nat) : Nat := (rhoOffsetTable.getD (x % 5) []).getD (y % 5) 0

/-- Rho+pi in closed form (R52). B[y, (2x+3y) mod 5] takes A[x,y], so B[u,v] takes the lane with
y = u and x = (u + 3v) mod 5. -/
def rhoPiClosed (A : Lanes) : Lanes :=
  lanesOf fun u v => rotl64 (laneAt A ((u + 3 * v) % 5) u) (rhoOffset ((u + 3 * v) % 5) u)

/-- Chi (R53): every lane of a row comes from the row's values before chi. -/
def chi (A : Lanes) : Lanes :=
  lanesOf fun x y =>
    laneAt A x y ^^^ (~~~laneAt A ((x + 1) % 5) y &&& laneAt A ((x + 2) % 5) y)

/-- The output bit of an LFSR step: bit 0 before the step (R54). -/
def lfsrOut (L : Byte) : Bool := L[0]

/-- The LFSR after a step: shifted left, with 0x71 XORed in when bit 7 was set (R54). -/
def lfsrNext (L : Byte) : Byte := if L[7] then L <<< 1 ^^^ 0x71 else L <<< 1

/-- Step j of iota (R55): flips bit 2^j − 1 of A[0,0] when the LFSR's output bit is 1. -/
def iotaStep (p : Lanes × Byte) (j : Nat) : Lanes × Byte :=
  (if lfsrOut p.2 then writeLane p.1 0 0 (laneAt p.1 0 0 ^^^ (1 : Lane) <<< (2 ^ j - 1)) else p.1,
   lfsrNext p.2)

/-- Iota (R55): seven steps of the LFSR; the lanes and the LFSR after them. -/
def iota (A : Lanes) (L : Byte) : Lanes × Byte := (List.range 7).foldl iotaStep (A, L)

/-- The table of round constants as R56 prints it: row i holds RC[i] and RC[i + 12]. -/
def roundConstantRows : List (Lane × Lane) :=
  [(0x0000000000000001, 0x000000008000808B),
   (0x0000000000008082, 0x800000000000008B),
   (0x800000000000808A, 0x8000000000008089),
   (0x8000000080008000, 0x8000000000008003),
   (0x000000000000808B, 0x8000000000008002),
   (0x0000000080000001, 0x8000000000000080),
   (0x8000000080008081, 0x000000000000800A),
   (0x8000000000008009, 0x800000008000000A),
   (0x000000000000008A, 0x8000000080008081),
   (0x0000000000000088, 0x8000000000008080),
   (0x0000000080008009, 0x0000000080000001),
   (0x000000008000000A, 0x8000000080008008)]

/-- The round constants in the order of the rounds: the table's left column, then its right one (R56). -/
def roundConstants : List Lane :=
  roundConstantRows.map Prod.fst ++ roundConstantRows.map Prod.snd

/-- Iota from the table: XORs a round constant into A[0,0] (R56, R57). -/
def iotaConstant (rc : Lane) (A : Lanes) : Lanes := writeLane A 0 0 (laneAt A 0 0 ^^^ rc)

/-- One round: theta, rho+pi, chi, iota, in that order (R57); the LFSR goes on from the round before. -/
def keccakRound (p : Lanes × Byte) : Lanes × Byte := iota (chi (rhoPi (theta p.1))) p.2

/-- `n` rounds. -/
def keccakRounds : Nat → Lanes × Byte → Lanes × Byte
  | 0, p => p
  | n + 1, p => keccakRounds n (keccakRound p)

/-- KeccakF (R58): 24 rounds, the LFSR seeded with 0x01 at the start of every application.
Irreducible, so that no proof about a command evaluates a permutation by accident; the kernel
evaluates it all the same. -/
@[irreducible] def keccakF (A : Lanes) : Lanes := (keccakRounds 24 (A, 0x01)).1

/-- A round from the closed form and the table (R52, R56, R57). -/
def tableRound (A : Lanes) (rc : Lane) : Lanes := iotaConstant rc (chi (rhoPiClosed (theta A)))

/-- KeccakF from the closed form and the table (R52, R56, R57). -/
def keccakFTable (A : Lanes) : Lanes := roundConstants.foldl tableRound A

end Sys2Proof.Machine
end

