-- ==== Sys2Proof/Machine/Ops.lean ====
section
/-! DEFINITION. The operations the commands share: the response, taking a fault, the faulted state,
the phase check, access to a byte at a register's index, and reset (10_state.md R24;
60_exceptions.md R71 to R76; 70_reset_and_hazards.md R84). -/

namespace Sys2Proof.Machine

/-- What a command answers. -/
abbrev Result := Host.Outcome State Fault Refusal

/-- Deliver the command's one response: the datum and STATUS after the command (R24). -/
def respond (rdata : Byte) (s : State) : State :=
  { s with responses := s.responses ++ [{ rdata := rdata, rstatus := s.status }] }

/-- Fault entry (R74): FAULT and CAUSE are set, the response is (0x00, STATUS), and S, RATE, SUFFIX,
POS and PHASE keep the values they had before the command. Log entry 1. -/
def raiseFault (c : Cause) (s : State) : State := respond 0x00 { s with fault := true, cause := c }

/-- A command in the faulted state: accepted and ignored, the response (0x00, STATUS) (R75). -/
def ignoreCommand (s : State) : State := respond 0x00 s

/-- A command is performed only while FAULT = 0 (R73, R75). -/
def unlessFaulted (s : State) (k : Result) : Result :=
  if s.fault then .next (ignoreCommand s) else k

/-- The phase check of ABSORB, FINAL and SQUEEZE (R71, R72): NOT_CONFIGURED in UNCONF, WRONG_PHASE
in the other phase than the one the command needs. -/
def inPhase (needed : Phase) (s : State) (k : Result) : Result :=
  if s.phase = .unconf then .next (raiseFault .notConfigured s)
  else if s.phase ≠ needed then .next (raiseFault .wrongPhase s)
  else k

/-- Go on with the byte S[p]. S has the bytes 0 to 199 (10_state.md R15, 00_scope.md R12); an index
above them, which R25 rules out, stops the model. Log entry 4. -/
def atByte (p : Byte) (k : Fin 200 → Result) : Result :=
  if h : p.toNat < 200 then k ⟨p.toNat, h⟩ else .fault .byteIndexOutOfRange

/-- S <- KeccakF(S) (R58). -/
def permute (s : State) : State := { s with lanes := keccakF s.lanes }

/-- A used-up block: when POS = RATE, permute and go back to position 0. The end of ABSORB, which has
filled the block (R60), and the start of SQUEEZE, which needs a byte of the next one (R62). -/
def renewBlock (s : State) : State := if s.pos = s.rate then { permute s with pos := 0 } else s

/-- A word that is no command: ILLEGAL_COMMAND, unless the engine is faulted already (R69, R73). -/
def refuseIllegal (s : State) : Result := unlessFaulted s (.next (raiseFault .illegalCommand s))

/-- Reset (R84): every register takes its reset value. What waits on the channel goes on waiting,
and the responses already delivered stay delivered: log entry 3. -/
def resetEngine (s : State) : State :=
  { State.reset with channel := s.channel, responses := s.responses }

end Sys2Proof.Machine
end

