-- ==== Sys2Proof/Machine/Sponge.lean ====
section
/-! DEFINITION. The meanings of the four commands (41_sponge.md R59 to R62), each as its rule's
pseudocode says, behind the check of FAULT that every command passes first (60_exceptions.md R73, R75). -/

namespace Sys2Proof.Machine

/-- INIT (R59): ILLEGAL_RATE when A = 0 or A > 200; else a new hash from S = 0, in any phase. -/
def execInit (rate suffix : Byte) (s : State) : Result :=
  unlessFaulted s <|
    if rateLegal rate then
      .next <| respond 0x00
        { s with
          lanes := Lanes.zero
          rate := rate
          suffix := suffix
          pos := 0
          phase := .absorb }
    else .next (raiseFault .illegalRate s)

/-- ABSORB (R60): XOR the byte into S[POS], advance POS, and permute when the block is full. -/
def execAbsorb (data : Byte) (s : State) : Result :=
  unlessFaulted s <| inPhase .absorb s <| atByte s.pos fun i =>
    .next <| respond 0x00 <|
      renewBlock { s with lanes := xorByte s.lanes i data, pos := s.pos + 1 }

/-- FINAL (R61): the suffix at S[POS], the conditional pre-permute, 0x80 at S[RATE−1], a permutation. -/
def execFinal (s : State) : Result :=
  unlessFaulted s <| inPhase .absorb s <| atByte s.pos fun i => atByte (s.rate - 1) fun last =>
    let suffixed := xorByte s.lanes i s.suffix
    let permuted := if prePermutes s then keccakF suffixed else suffixed
    .next <| respond 0x00
      { s with
        lanes := keccakF (xorByte permuted last 0x80)
        pos := 0
        phase := .squeeze }

/-- SQUEEZE (R62): permute first when POS = RATE, return S[POS], advance POS. -/
def execSqueeze (s : State) : Result :=
  unlessFaulted s <| inPhase .squeeze s <| atByte (renewBlock s).pos fun i =>
    .next <| respond (byteAt (renewBlock s).lanes i)
      { renewBlock s with pos := (renewBlock s).pos + 1 }

end Sys2Proof.Machine
end

