-- ==== Sys2Proof/Machine/Dispatch.lean ====
section
/-! DEFINITION. Which meaning each command has: one arm per constructor of Instr. -/

namespace Sys2Proof.Machine

-- 41_sponge.md R59 to R62.
def exec (i : Instr) (s : State) : Host.Outcome State Fault Refusal :=
  match i with
  | .init rate suffix => Sys2Proof.Machine.execInit rate suffix s
  | .absorb data => Sys2Proof.Machine.execAbsorb data s
  | .final => Sys2Proof.Machine.execFinal s
  | .squeeze => Sys2Proof.Machine.execSqueeze s

end Sys2Proof.Machine
end

