-- ==== Sys2Proof/Machine/Channel.lean ====
section
/-! DEFINITION. What the engine does with the event at the head of its channel (60_exceptions.md
R73; 70_reset_and_hazards.md R84, R85, R88). -/

namespace Sys2Proof.Machine

/-- Perform one command word (R73): decode it, and perform the command or raise ILLEGAL_COMMAND.
Both do nothing but respond while FAULT = 1 (R75). -/
def performWord (w : Word) (s : State) : Result :=
  match decode w with
  | .illegal _ => refuseIllegal s
  | .legal i => exec i s

/-- Take one event: a command word, a reset (R84), or a reset that abandons the command being
performed, with no response and no trace of it (R85). -/
def serveEvent (e : Event) (s : State) : Result :=
  match e with
  | .command w => performWord w s
  | .reset => .next (resetEngine s)
  | .resetDuring _ => .next (resetEngine s)

/-- One step: the event at the head of the channel is accepted and served, whole (20_memory.md R29).
With nothing presented the engine is idle and holds all state (60_exceptions.md R83). -/
def advance (s : State) : Result :=
  match s.channel with
  | [] => .next s
  | e :: rest => serveEvent e { s with channel := rest }

end Sys2Proof.Machine
end

