-- ==== Sys2Proof/Machine/Step.lean ====
section
/-! DEFINITION. The step of one engine, and how an instruction is placed where it is taken next. -/

namespace Sys2Proof.Machine

/-- One step of the engine (20_memory.md R29, R35): see `advance`. -/
def step (s : State) : Host.Outcome State Fault Refusal := advance s

/-- `s` with a command word presented ahead of everything that waits: the next step accepts it. The
engine fetches no instructions (20_memory.md R37); the host's channel is where its commands come
from. Log entry 2. -/
def State.withFetchWord (s : State) (nbits w : Nat) : State :=
  { s with channel := .command (BitVec.ofNat 32 (w % 2 ^ nbits)) :: s.channel }

end Sys2Proof.Machine
end

