-- ==== Sys2Proof/Machine/Assembler.lean ====
section
/-! DEFINITION. The assembler (30_encoding.md R43 to R47): a line's commands, and the reading of a
line of text. A text is a list of characters. What R43 and R44 leave open about text is in log
entry 10. -/

namespace Sys2Proof.Machine

/-- The value of a digit (R43). -/
def digitValue (c : Char) : Nat :=
  if '0'.toNat ≤ c.toNat ∧ c.toNat ≤ '9'.toNat then c.toNat - '0'.toNat
  else if 'a'.toNat ≤ c.toNat ∧ c.toNat ≤ 'f'.toNat then c.toNat - 'a'.toNat + 10
  else c.toNat - 'A'.toNat + 10

/-- The bytes of hexadecimal digits, two a byte, the first digit the high one (R44). -/
def hexBytes : List Char → List Byte
  | hi :: lo :: ds => BitVec.ofNat 8 (16 * digitValue hi + digitValue lo) :: hexBytes ds
  | _ => []

/-- The bytes of a byte string, first byte first; of a text, each character's 8-bit code (R44). -/
def AsmBytes.bytes : AsmBytes → List Byte
  | .text cs => cs.map fun c => BitVec.ofNat 8 c.toNat
  | .hex ds => hexBytes ds

/-- The rate in bytes of a variant (R46). -/
def Variant.rate : Variant → Byte
  | .shake128 => 168
  | .shake256 => 136
  | .sha3_224 => 144
  | .sha3_256 => 136
  | .sha3_384 => 104
  | .sha3_512 => 72

/-- The suffix of a variant (R46). -/
def Variant.suffix : Variant → Byte
  | .shake128 => 0x1F
  | .shake256 => 0x1F
  | .sha3_224 => 0x06
  | .sha3_256 => 0x06
  | .sha3_384 => 0x06
  | .sha3_512 => 0x06

/-- The length in bytes of a digest (R47); a SHAKE has none of its own. -/
def Variant.digestLength : Variant → Nat
  | .shake128 => 0
  | .shake256 => 0
  | .sha3_224 => 28
  | .sha3_256 => 32
  | .sha3_384 => 48
  | .sha3_512 => 64

/-- ABSORBS: one ABSORB a byte, in order (R44). -/
def absorbAll (bytes : List Byte) : List Instr := bytes.map Instr.absorb

/-- SQUEEZEN: n SQUEEZEs (R45). -/
def squeezeMany (n : Nat) : List Instr := List.replicate n Instr.squeeze

/-- The INIT of a variant (R46). -/
def Variant.init (v : Variant) : Instr := .init v.rate v.suffix

/-- The commands of HASH and XOF (R47). -/
def hashCommands (v : Variant) (bytes : List Byte) (n : Nat) : List Instr :=
  v.init :: absorbAll bytes ++ .final :: squeezeMany n

/-- The commands a line stands for (R43 to R47). -/
def AsmLine.expand : AsmLine → List Instr
  | .init rate suffix => [.init (BitVec.ofNat 8 rate) (BitVec.ofNat 8 suffix)]
  | .absorb data => [.absorb (BitVec.ofNat 8 data)]
  | .final => [.final]
  | .squeeze => [.squeeze]
  | .absorbs bytes => absorbAll bytes.bytes
  | .squeezen n => squeezeMany n
  | .variant v => [v.init]
  | .hash v bytes => hashCommands v bytes.bytes v.digestLength
  | .xof v bytes n => hashCommands v bytes.bytes n

/-- The assembler on a line: its commands, or no answer where it refuses the line (R43). -/
def assemble (l : AsmLine) : Option (List Instr) := if l.wellFormed then some l.expand else none

/-- The words of a line (R43). -/
def assembleWords (l : AsmLine) : Option (List Word) := (assemble l).map (List.map encode)

/-- The blanks of a line. -/
def isBlank (c : Char) : Bool := c == ' ' || c == '\t'

/-- The text without blanks at its ends. -/
def trimBlanks (cs : List Char) : List Char :=
  ((cs.dropWhile isBlank).reverse.dropWhile isBlank).reverse

/-- The text before the comment, which `;` starts (R43); not a `;` inside quotes. -/
def cutComment (quoted : Bool) : List Char → List Char
  | [] => []
  | c :: cs =>
    if c = ';' ∧ quoted = false then []
    else c :: cutComment (if c = quoteChar then !quoted else quoted) cs

/-- The parts of a text between the commas that stand outside quotes. -/
def splitCommas (quoted : Bool) : List Char → List (List Char)
  | [] => [[]]
  | c :: cs =>
    let rest := splitCommas (if c = quoteChar then !quoted else quoted) cs
    if c = ',' ∧ quoted = false then [] :: rest
    else (c :: rest.headD []) :: rest.tail

/-- A decimal number, or a hexadecimal one after `0x` (R43). -/
def readNumber : List Char → Option Nat
  | '0' :: 'x' :: ds =>
    if ds ≠ [] ∧ ds.all isHexDigit then some (ds.foldl (fun n c => 16 * n + digitValue c) 0)
    else none
  | ds =>
    if ds ≠ [] ∧ ds.all Char.isDigit then some (ds.foldl (fun n c => 10 * n + digitValue c) 0)
    else none

/-- A byte string: a quoted text, or digits after `0x` (R44). -/
def readBytes : List Char → Option AsmBytes
  | '0' :: 'x' :: ds => some (.hex ds)
  | c :: cs =>
    if c = quoteChar ∧ cs.getLast? = some quoteChar then some (.text cs.dropLast) else none
  | [] => none

/-- The variant of a mnemonic (R46). -/
def readVariant (cs : List Char) : Option Variant :=
  if cs = "SHAKE128".toList then some .shake128
  else if cs = "SHAKE256".toList then some .shake256
  else if cs = "SHA3_224".toList then some .sha3_224
  else if cs = "SHA3_256".toList then some .sha3_256
  else if cs = "SHA3_384".toList then some .sha3_384
  else if cs = "SHA3_512".toList then some .sha3_512
  else none

/-- The line of a mnemonic and its operands (R43 to R47). -/
def readForm (mnemonic : List Char) (operands : List (List Char)) : Option AsmLine :=
  match operands with
  | [] =>
    if mnemonic = "FINAL".toList then some .final
    else if mnemonic = "SQUEEZE".toList then some .squeeze
    else (readVariant mnemonic).map AsmLine.variant
  | [a] =>
    if mnemonic = "ABSORB".toList then (readNumber a).map AsmLine.absorb
    else if mnemonic = "ABSORBS".toList then (readBytes a).map AsmLine.absorbs
    else if mnemonic = "SQUEEZEN".toList then (readNumber a).map AsmLine.squeezen
    else none
  | [a, b] =>
    if mnemonic = "INIT".toList then
      (readNumber a).bind fun rate => (readNumber b).map fun suffix => .init rate suffix
    else if mnemonic = "HASH".toList then
      (readVariant a).bind fun v => (readBytes b).map fun bytes => .hash v bytes
    else none
  | [a, b, c] =>
    if mnemonic = "XOF".toList then
      (readVariant a).bind fun v =>
        (readBytes b).bind fun bytes => (readNumber c).map fun n => .xof v bytes n
    else none
  | _ => none

/-- Read a line without its comment and outer blanks: the mnemonic, then operands separated by
commas (R43). -/
def readLine (body : List Char) : Option AsmLine :=
  let operands := trimBlanks (body.dropWhile fun c => !isBlank c)
  readForm (body.takeWhile fun c => !isBlank c)
    (if operands = [] then [] else (splitCommas false operands).map trimBlanks)

/-- Assemble one line of text; a line of blanks and a comment only stands for no command. -/
def assembleText (line : List Char) : Option (List Instr) :=
  let body := trimBlanks (cutComment false line)
  if body = [] then some [] else (readLine body).bind assemble

/-- Assemble a program, one line after the other (R43). A line that is refused leaves the whole program
without an answer; what becomes of the other lines then is not in the spec (DESIGN CHOICE: log
entry 10). -/
def assembleProgram : List (List Char) → Option (List Instr)
  | [] => some []
  | l :: ls => (assembleText l).bind fun is => (assembleProgram ls).map fun js => is ++ js

end Sys2Proof.Machine
end

