-- ==== Sys2Proof/Machine/BlockSponge.lean ====
section
/-! DEFINITION. The source's sponge algorithm, block by block, as 41_sponge.md R61, R64 and R66
state it, and the bit-level padding R65 names: what the four commands are said to compute. It is a
function of a rate, a suffix, a message and an output length, and has no phase, position or command. -/

namespace Sys2Proof.Machine

/-- XOR the bytes of `block` into S[0], S[1], … (R64). -/
def xorBlock (block : List Byte) (A : Lanes) : Lanes :=
  ((List.finRange 200).zip block).foldl (fun A p => xorByte A p.1 p.2) A

/-- The absorb loop (R64) with `q` full blocks of `rate` bytes still to come: each is XORed into
S[0..R−1] and permuted; the bytes after them are XORed with no permutation. -/
def absorbBlocks (rate : Nat) : Nat → List Byte → Lanes → Lanes
  | 0, message, A => xorBlock message A
  | q + 1, message, A =>
    absorbBlocks rate q (message.drop rate) (keccakF (xorBlock (message.take rate) A))

/-- Absorption of a whole message into the zero state: ⌊L/R⌋ full blocks and the rest (R64). -/
def absorbMessage (rate : Nat) (message : List Byte) : Lanes :=
  absorbBlocks rate (message.length / rate) message Lanes.zero

/-- Suffix and padding after a final block that holds `p` bytes (R61, R65). -/
def padBlock (suffix : Byte) (p last : Fin 200) (A : Lanes) : Lanes :=
  let suffixed := xorByte A p suffix
  let permuted := if suffix[7] ∧ p = last then keccakF suffixed else suffixed
  keccakF (xorByte permuted last 0x80)

/-- The bits of a byte, bit 0 first: "Bit b of a host byte is bit b of the state byte"
(20_memory.md R31). -/
def byteBits (b : Byte) : List Bool := (List.range 8).map b.getLsbD

/-- The bytes of a bit string whose length is a multiple of 8, bit 0 of each byte first. -/
def bytesOfBits : List Bool → List Byte
  | b0 :: b1 :: b2 :: b3 :: b4 :: b5 :: b6 :: b7 :: bs =>
    BitVec.ofBoolListLE [b0, b1, b2, b3, b4, b5, b6, b7] :: bytesOfBits bs
  | _ => []

/-- The suffix bits s[k−1:0], k the highest set bit of `s` (R65). -/
def suffixBits (s : Byte) : List Bool := (List.range s.toNat.log2).map s.getLsbD

/-- pad10*1 (R65): a 1, the fewest 0s and a 1 that make `m` bits a multiple of `x` bits. -/
def pad101 (x m : Nat) : List Bool :=
  true :: List.replicate ((x - (m + 2) % x) % x) false ++ [true]

/-- Message, suffix bits and pad10*1, as one bit string of whole blocks (R65). -/
def paddedBits (rate : Nat) (suffix : Byte) (message : List Byte) : List Bool :=
  let bits := message.flatMap byteBits ++ suffixBits suffix
  bits ++ pad101 (8 * rate) bits.length

/-- The first `m` bytes of the state. -/
def frontBytes (m : Nat) (A : Lanes) : List Byte := ((List.finRange 200).take m).map (byteAt A)

/-- The squeeze loop (R66): min(remaining, R) bytes from the front of the state, then, if more is
required, a permutation and on. `blocks` bounds the number of output blocks. -/
def squeezeBlocks (rate : Nat) : Nat → Nat → Lanes → List Byte
  | 0, _, _ => []
  | blocks + 1, n, A =>
    frontBytes (min n rate) A ++ squeezeBlocks rate blocks (n - rate) (keccakF A)

/-- The sponge function of the source's algorithm for a rate of 1 to 200 bytes (R63, R64, R65, R66). -/
def blockSponge (rate : Nat) (h : 1 ≤ rate ∧ rate ≤ 200) (suffix : Byte) (message : List Byte)
    (n : Nat) : List Byte :=
  squeezeBlocks rate n n <|
    padBlock suffix
      ⟨message.length % rate, Nat.lt_of_lt_of_le (Nat.mod_lt _ h.1) h.2⟩
      ⟨rate - 1, Nat.lt_of_lt_of_le (Nat.sub_lt h.1 Nat.one_pos) h.2⟩
      (absorbMessage rate message)

end Sys2Proof.Machine
end

