-- ==== Sys2Proof/Config.lean ====
section
/-! DEFINITION. The two parameters the spec leaves open (00_scope.md R10): the latency of a command
and the number of engines on a platform. Neither has a value here, so no proof can rest on one.
The fixed parameters of R7 and R8 (25 lanes, 200 bytes, 24 rounds, 7 LFSR steps a round, rates 1 to
200) stand as numerals where the rules use them. -/

namespace Sys2Proof.Config

/-- `T_cmd` (R10, 70_reset_and_hazards.md R91; 92_eei_decisions.md D23): the latency of a command in
clock cycles, which may depend on how many KeccakF applications it performs. Log entry 8. -/
opaque tCmd : Nat → Nat

/-- The engines of a platform beyond the first. Log entry 7. -/
opaque extraEngines : Nat

/-- `N_inst` (R10; 92_eei_decisions.md D25), the number of engines on a platform: at least 1. -/
def nInst : Nat := extraEngines + 1

end Sys2Proof.Config
end

