-- ==== Sys2Proof/Machine/Platform.lean ====
section
/-! DEFINITION. A platform of N_inst engines (00_scope.md R10; 60_exceptions.md R81): each has its
own state, channel and reset, and a step is a step of one of them. -/

namespace Sys2Proof.Machine

/-- The engines of a platform, by number. The numbers are the platform's: the engines hold no
identifier (R81). Log entry 7. -/
abbrev Platform := List State

/-- Every engine in its reset state. -/
def Platform.reset : Platform := List.replicate Config.nInst State.reset

/-- A step of engine `k`: the other engines keep their states (R81). -/
def platformStep (k : Nat) (p : Platform) : Host.Outcome Platform Fault Refusal :=
  match p[k]? with
  | none => .refused .noSuchEngine
  | some s =>
    match step s with
    | .next t => .next (p.set k t)
    | .fault r => .fault r
    | .refused r => .refused r

end Sys2Proof.Machine
end

