-- ==== Sys2Proof/Machine/Work.lean ====
section
/-! DEFINITION. The work of a command in KeccakF applications, and the host's command sequences
(41_sponge.md R63, R67; 70_reset_and_hazards.md R87, R91). The engine keeps no counter (60_exceptions.md
R79): these are functions of the state a command starts in, not state. -/

namespace Sys2Proof.Machine

/-- "INIT 0; ABSORB 0, or 1 when the byte fills a block; FINAL 1, or 2 with the pre-permute; SQUEEZE
0, or 1 when POS = RATE" (R91). A command that faults or is ignored does no work. -/
def work (i : Instr) (s : State) : Nat :=
  match i with
  | .init _ _ => 0
  | .absorb _ => if s.fault = false ∧ s.phase = .absorb ∧ s.pos + 1 = s.rate then 1 else 0
  | .final =>
    if s.fault = false ∧ s.phase = .absorb then (if prePermutes s then 2 else 1) else 0
  | .squeeze => if s.fault = false ∧ s.phase = .squeeze ∧ s.pos = s.rate then 1 else 0

/-- The latency of a command, in clock cycles: the open parameter T_cmd at the command's work (R10,
R91). No rule depends on it. Log entry 8. -/
def latency (i : Instr) (s : State) : Nat := Config.tCmd (work i s)

/-- Perform the commands in order, each on the state its predecessor left (20_memory.md R35). -/
def performAll : List Instr → State → Result
  | [], s => .next s
  | i :: is, s =>
    match exec i s with
    | .next t => performAll is t
    | .fault r => .fault r
    | .refused r => .refused r

/-- The KeccakF applications of a command sequence (R67). -/
def totalWork : List Instr → State → Nat
  | [], _ => 0
  | i :: is, s =>
    work i s +
      match exec i s with
      | .next t => totalWork is t
      | .fault _ => 0
      | .refused _ => 0

/-- The host's sequence for one hash or XOF: INIT, one ABSORB for each message byte, FINAL, one
SQUEEZE for each output byte (R63, R87). -/
def hashSequence (rate suffix : Byte) (message : List Byte) (n : Nat) : List Instr :=
  .init rate suffix :: (message.map Instr.absorb ++ .final :: List.replicate n Instr.squeeze)

/-- `s` with the commands presented on its channel after what waits there, as words. -/
def State.present (s : State) (is : List Instr) : State :=
  { s with channel := s.channel ++ is.map fun i => .command (encode i) }

end Sys2Proof.Machine
end

