-- ==== Sys2Proof/Safety.lean ====
section
/-! DEFINITION. What counts as a good state and a safe run: the invariants of 10_state.md R25, and
FAULT = 0 (60_exceptions.md, opening: "A model treats a state with FAULT = 1 as a fault outcome,
never as a normal end"; 93_implementation_defined.md I5). -/

namespace Sys2Proof.Machine

/-- PHASE = UNCONF: nothing is configured and S is zero (R25). -/
abbrev State.UnconfClear (s : State) : Prop :=
  s.phase = .unconf → s.rate = 0 ∧ s.suffix = 0 ∧ s.pos = 0 ∧ s.lanes = Lanes.zero

/-- PHASE = ABSORB: 1 ≤ RATE ≤ 200 and POS ≤ RATE − 1 (R25). -/
abbrev State.AbsorbBounds (s : State) : Prop :=
  s.phase = .absorb → 1 ≤ s.rate.toNat ∧ s.rate.toNat ≤ 200 ∧ s.pos.toNat < s.rate.toNat

/-- PHASE = SQUEEZE: 1 ≤ RATE ≤ 200 and POS ≤ RATE (R25). -/
abbrev State.SqueezeBounds (s : State) : Prop :=
  s.phase = .squeeze → 1 ≤ s.rate.toNat ∧ s.rate.toNat ≤ 200 ∧ s.pos.toNat ≤ s.rate.toNat

/-- FAULT = 0 exactly when CAUSE = 0; with FAULT = 1 the code is 1 to 4 (R25). -/
abbrev State.FaultRecorded (s : State) : Prop := s.fault = false ↔ s.cause = .none

/-- The invariants of R25. -/
abbrev State.Inv (s : State) : Prop :=
  s.UnconfClear ∧ s.AbsorbBounds ∧ s.SqueezeBounds ∧ s.FaultRecorded

/-- A run of `k` steps from `s` is safe when it ends in a state with FAULT = 0: in a normal end and
not in a fault outcome. -/
def SafeRun (k : Nat) (s : State) : Prop :=
  ∃ t : State, Host.Core.run Sys2Proof.core k s = .next t ∧ t.fault = false

/-- The answer `r` is the entry into a fault of cause `c` from `s` (R74): a next state with FAULT = 1,
CAUSE = c and one response (0x00, STATUS), all else as before the command. -/
def TakesFault (c : Cause) (s : State) (r : Result) : Prop :=
  ∃ t : State, r = .next t ∧ t.fault = true ∧ t.cause = c ∧ t.lanes = s.lanes ∧ t.rate = s.rate ∧
    t.suffix = s.suffix ∧ t.pos = s.pos ∧ t.phase = s.phase ∧ t.channel = s.channel ∧
    t.responses = s.responses ++ [{ rdata := 0x00, rstatus := t.status }]

/-- The answer `r` accepts a command in `s` and ignores it (R75): a next state that differs from `s` by
the one response (0x00, STATUS). -/
def Ignores (s : State) (r : Result) : Prop :=
  r = .next { s with responses := s.responses ++ [{ rdata := 0x00, rstatus := s.status }] }

/-- The data of the responses `t` holds beyond those of `s`. -/
def newData (s t : State) : List Byte :=
  (t.responses.drop s.responses.length).map Response.rdata

end Sys2Proof.Machine
end

