-- ==== Sys2Proof/Certificates/Slice0/Obligations.lean ====
section
/-! DEFINITION. The statements about the model, from the numbered rules of the spec. -/

open Sys2Proof Sys2Proof.Machine

/-! ### The command word (30_encoding.md) -/

/-- Encoding loses nothing: every command decodes from its word with every operand at every value
(30_encoding.md section 2, R39, R40, R42). -/
def Obligations.DecodeInvertsEncode : Prop :=
  ∀ i : Instr, decode (encode i) = .legal i

/-- No word but its encoding decodes to a command: each word has one meaning (R40, R42). -/
def Obligations.EncodeInvertsDecode : Prop :=
  ∀ (w : Word) (i : Instr), decode w = .legal i → encode i = w

/-- The opcode map (R40): a word is the command of a row exactly when `w & mask = match`, with the
operands at A [15:8] and B [23:16], and at most one row of the map covers any word. -/
def Obligations.DecodeFollowsOpcodeMap : Prop :=
  (∀ w : Word,
    (w &&& 0xFF0000FF = 0x00000001 ↔
      decode w = .legal (.init (w.extractLsb' 8 8) (w.extractLsb' 16 8))) ∧
    (w &&& 0xFFFF00FF = 0x00000002 ↔ decode w = .legal (.absorb (w.extractLsb' 8 8))) ∧
    (w &&& 0xFFFFFFFF = 0x00000003 ↔ decode w = .legal .final) ∧
    (w &&& 0xFFFFFFFF = 0x00000004 ↔ decode w = .legal .squeeze)) ∧
  ∀ (w : Word) (r r' : OpcodeRow), r ∈ opcodeTable → r' ∈ opcodeTable →
    r.covers w = true → r'.covers w = true → r = r'

/-- The illegal words are those of R41's list, and an engine with FAULT = 0 refuses each, whatever
its phase, with cause ILLEGAL_COMMAND (R41, R69). -/
def Obligations.ListedWordsAreIllegal : Prop :=
  ∀ (w : Word) (s : State), s.fault = false →
    let illegal : Prop :=
      w.extractLsb' 4 4 ≠ 0 ∨ w.extractLsb' 24 8 ≠ 0 ∨
      w.extractLsb' 0 4 = 0 ∨ 5 ≤ (w.extractLsb' 0 4).toNat ∨
      (w.extractLsb' 0 4 = 2 ∧ w.extractLsb' 16 8 ≠ 0) ∨
      ((w.extractLsb' 0 4 = 3 ∨ w.extractLsb' 0 4 = 4) ∧
        (w.extractLsb' 8 8 ≠ 0 ∨ w.extractLsb' 16 8 ≠ 0))
    ((∃ why, decode w = .illegal why) ↔ illegal) ∧
    (illegal → TakesFault .illegalCommand s (performWord w s))

/-- Words written out from the spec's examples decode to the commands they stand for (R43; the words
are those of 95_test_vectors.md sections 4.1 and 4.2). -/
def Obligations.SampleWordsDecode : Prop :=
  decode 0x00068801 = .legal (.init 136 0x06) ∧ decode 0x001FA801 = .legal (.init 168 0x1F) ∧
  decode 0x0006C901 = .legal (.init 201 0x06) ∧ decode 0x00006102 = .legal (.absorb 0x61) ∧
  decode 0x00000003 = .legal .final ∧ decode 0x00000004 = .legal .squeeze ∧
  (∀ i, decode 0x00000000 ≠ .legal i) ∧ (∀ i, decode 0x00010002 ≠ .legal i)

/-! ### The views of the state (10_state.md) -/

/-- The lane view and the byte view are one storage (R16): bit k of A[x,y] is bit k mod 8 of
S[8n + k div 8] with n = x + 5y; writing a lane writes its eight bytes and no other; writing S[i]
changes bits 8(i mod 8) to 8(i mod 8)+7 of lane i div 8 and nothing else. -/
def Obligations.LaneAndByteViewsAgree : Prop :=
  ∀ (A : Lanes) (x y : Nat), x < 5 → y < 5 →
    (∀ (k : Nat) (i : Fin 200), k < 64 → i.val = 8 * (x + 5 * y) + k / 8 →
      (laneAt A x y).getLsbD k = (byteAt A i).getLsbD (k % 8)) ∧
    (∀ (v : Lane) (i : Fin 200), byteAt (writeLane A x y v) i =
      if i.val / 8 = x + 5 * y then v.extractLsb' (8 * (i.val % 8)) 8 else byteAt A i) ∧
    (∀ (v : Byte) (i : Fin 200) (k : Nat), k < 64 →
      (laneAt (writeByte A i v) x y).getLsbD k =
        if i.val / 8 = x + 5 * y ∧ 8 * (i.val % 8) ≤ k ∧ k < 8 * (i.val % 8) + 8 then
          v.getLsbD (k - 8 * (i.val % 8))
        else (laneAt A x y).getLsbD k)

/-- STATUS shows PHASE at [1:0], FAULT at [2], zero at [3], CAUSE at [7:4], POS at [15:8], RATE at
[23:16] and SUFFIX at [31:24] (R23), with the codes of R21 and of 60_exceptions.md R68. -/
def Obligations.StatusShowsTheRegisters : Prop :=
  (∀ s : State,
    s.status.extractLsb' 0 2 =
      (match s.phase with | .unconf => 0#2 | .absorb => 1#2 | .squeeze => 2#2) ∧
    s.status.getLsbD 2 = s.fault ∧ s.status.getLsbD 3 = false ∧
    s.status.extractLsb' 4 4 =
      (match s.cause with
        | .none => 0#4 | .illegalCommand => 1#4 | .illegalRate => 2#4
        | .notConfigured => 3#4 | .wrongPhase => 4#4) ∧
    s.status.extractLsb' 8 8 = s.pos ∧ s.status.extractLsb' 16 8 = s.rate ∧
    s.status.extractLsb' 24 8 = s.suffix) ∧
  State.reset.status = 0

/-- A byte the host ABSORBs at position i, in a block it does not fill, is XORed into bits 8(i mod 8)
to 8(i mod 8)+7 of A[(i div 8) mod 5, (i div 8) div 5], and no other bit of any lane changes
(20_memory.md R31). -/
def Obligations.AbsorbedByteLandsInItsLane : Prop :=
  ∀ (d : Byte) (s : State) (x y k : Nat), s.fault = false → s.phase = .absorb →
    s.pos.toNat < 200 → s.pos + 1 ≠ s.rate → x < 5 → y < 5 → k < 64 →
    ∃ t : State, exec (.absorb d) s = .next t ∧
      (laneAt t.lanes x y).getLsbD k =
        ((laneAt s.lanes x y).getLsbD k ^^
          (decide (x = s.pos.toNat / 8 % 5 ∧ y = s.pos.toNat / 8 / 5 ∧
              8 * (s.pos.toNat % 8) ≤ k ∧ k < 8 * (s.pos.toNat % 8) + 8) &&
            d.getLsbD (k - 8 * (s.pos.toNat % 8))))

/-! ### Reset (70_reset_and_hazards.md) -/

/-- Reset, in any state, sets S, RATE, SUFFIX, POS, PHASE, FAULT and CAUSE to their reset values and
STATUS to 0 (R84). What waits on the channel and the responses already given stay: the model's
choice, log entry 3. -/
def Obligations.ResetSetsEveryRegister : Prop :=
  ∀ (s : State) (rest : List Event), s.channel = .reset :: rest →
    ∃ t : State, step s = .next t ∧ t.lanes = Lanes.zero ∧ t.rate = 0 ∧ t.suffix = 0 ∧
      t.pos = 0 ∧ t.phase = .unconf ∧ t.fault = false ∧ t.cause = .none ∧ t.status = 0 ∧
      t.channel = rest ∧ t.responses = s.responses

/-- The reset state is clear (R84): S, RATE, SUFFIX, POS, FAULT, CAUSE and STATUS are zero and PHASE is
UNCONF; nothing waits and nothing was answered (the model's choice, log entry 2). -/
def Obligations.ResetStateIsClear : Prop :=
  (∀ i : Fin 200, byteAt State.reset.lanes i = 0) ∧ State.reset.rate = 0 ∧
  State.reset.suffix = 0 ∧ State.reset.pos = 0 ∧ State.reset.phase = .unconf ∧
  State.reset.fault = false ∧ State.reset.cause = .none ∧ State.reset.status = 0 ∧
  State.reset.channel = [] ∧ State.reset.responses = []

/-- A reset that arrives while a command is performed abandons it: no response, the reset state, and
no trace of the command (R85). That what waits on the channel goes on waiting is the model's choice,
log entry 3. -/
def Obligations.ResetAbandonsCommandInFlight : Prop :=
  ∀ (s : State) (w : Word) (rest : List Event), s.channel = .resetDuring w :: rest →
    step s = .next { State.reset with channel := rest, responses := s.responses }

/-! ### The commands (41_sponge.md) -/

/-- INIT (R59): with 1 ≤ A ≤ 200, in every phase and whatever B is, S is zero, RATE = A, SUFFIX = B,
POS = 0 and PHASE = ABSORB, with the response (0x00, STATUS), and nothing else changes; with A = 0
or A > 200 it takes the fault ILLEGAL_RATE (R70). Its word has OP = 1, A and B. -/
def Obligations.InitFollowsItsRule : Prop :=
  ∀ (a b : Byte) (s : State), s.fault = false →
    (1 ≤ a.toNat ∧ a.toNat ≤ 200 →
      ∃ t : State, exec (.init a b) s = .next t ∧ t.lanes = Lanes.zero ∧ t.rate = a ∧
        t.suffix = b ∧ t.pos = 0 ∧ t.phase = .absorb ∧ t.fault = false ∧ t.cause = s.cause ∧
        t.channel = s.channel ∧
        t.responses = s.responses ++ [{ rdata := 0x00, rstatus := t.status }]) ∧
    (a = 0 ∨ 200 < a.toNat → TakesFault .illegalRate s (exec (.init a b) s)) ∧
    decode (0x00000001 ||| a.setWidth 32 <<< 8 ||| b.setWidth 32 <<< 16) = .legal (.init a b)

/-- ABSORB (R60): in PHASE = ABSORB it XORs d into S[POS] and advances POS; the byte that fills the
block permutes in the same command and POS is 0 again; RATE, SUFFIX, PHASE, the fault record and
every byte but S[POS] of the state before a permutation are as before. In UNCONF it takes
NOT_CONFIGURED, in SQUEEZE WRONG_PHASE. The premise is R25's for PHASE = ABSORB. Its word has OP = 2
and A. -/
def Obligations.AbsorbFollowsItsRule : Prop :=
  ∀ (d : Byte) (s : State), s.fault = false → s.AbsorbBounds →
    decode (0x00000002 ||| d.setWidth 32 <<< 8) = .legal (.absorb d) ∧
    (s.phase = .unconf → TakesFault .notConfigured s (exec (.absorb d) s)) ∧
    (s.phase = .squeeze → TakesFault .wrongPhase s (exec (.absorb d) s)) ∧
    (s.phase = .absorb →
      ∃ (t : State) (B : Lanes), exec (.absorb d) s = .next t ∧
        (∀ i : Fin 200, byteAt B i =
          if i.val = s.pos.toNat then byteAt s.lanes i ^^^ d else byteAt s.lanes i) ∧
        (s.pos.toNat + 1 < s.rate.toNat →
          t.lanes = B ∧ t.pos.toNat = s.pos.toNat + 1) ∧
        (s.pos.toNat + 1 = s.rate.toNat → t.lanes = keccakF B ∧ t.pos = 0) ∧
        t.rate = s.rate ∧ t.suffix = s.suffix ∧ t.phase = .absorb ∧ t.fault = false ∧
        t.cause = s.cause ∧ t.channel = s.channel ∧
        t.responses = s.responses ++ [{ rdata := 0x00, rstatus := t.status }])

/-- FINAL (R61): in PHASE = ABSORB it XORs SUFFIX into S[POS], permutes when SUFFIX[7] = 1 and
POS = RATE − 1, XORs 0x80 into S[RATE − 1], permutes, and leaves POS = 0 and PHASE = SQUEEZE; RATE,
SUFFIX and the fault record are as before. In UNCONF it takes NOT_CONFIGURED, in SQUEEZE
WRONG_PHASE. The premise is R25's for PHASE = ABSORB. Its word is 0x00000003. -/
def Obligations.FinalFollowsItsRule : Prop :=
  ∀ s : State, s.fault = false → s.AbsorbBounds →
    decode 0x00000003 = .legal .final ∧
    (s.phase = .unconf → TakesFault .notConfigured s (exec .final s)) ∧
    (s.phase = .squeeze → TakesFault .wrongPhase s (exec .final s)) ∧
    (s.phase = .absorb →
      ∃ (t : State) (B C D : Lanes), exec .final s = .next t ∧
        (∀ i : Fin 200, byteAt B i =
          if i.val = s.pos.toNat then byteAt s.lanes i ^^^ s.suffix else byteAt s.lanes i) ∧
        (s.suffix.getLsbD 7 = true ∧ s.pos.toNat = s.rate.toNat - 1 → C = keccakF B) ∧
        (¬(s.suffix.getLsbD 7 = true ∧ s.pos.toNat = s.rate.toNat - 1) → C = B) ∧
        (∀ i : Fin 200, byteAt D i =
          if i.val = s.rate.toNat - 1 then byteAt C i ^^^ 0x80 else byteAt C i) ∧
        t.lanes = keccakF D ∧ t.pos = 0 ∧ t.phase = .squeeze ∧ t.rate = s.rate ∧
        t.suffix = s.suffix ∧ t.fault = false ∧ t.cause = s.cause ∧ t.channel = s.channel ∧
        t.responses = s.responses ++ [{ rdata := 0x00, rstatus := t.status }])

/-- SQUEEZE (R62): in PHASE = SQUEEZE it permutes first when POS = RATE, returns the byte at the
position and advances POS; RATE, SUFFIX, PHASE and the fault record are as before, and so is all of
S when POS is below RATE; the byte is never one of the capacity part. In UNCONF it takes
NOT_CONFIGURED, in ABSORB WRONG_PHASE. The premise is R25's for PHASE = SQUEEZE. Its word is
0x00000004. -/
def Obligations.SqueezeFollowsItsRule : Prop :=
  ∀ s : State, s.fault = false → s.SqueezeBounds →
    decode 0x00000004 = .legal .squeeze ∧
    (s.phase = .unconf → TakesFault .notConfigured s (exec .squeeze s)) ∧
    (s.phase = .absorb → TakesFault .wrongPhase s (exec .squeeze s)) ∧
    (s.phase = .squeeze →
      ∃ (t : State) (i : Fin 200), exec .squeeze s = .next t ∧
        (s.pos = s.rate → t.lanes = keccakF s.lanes ∧ i.val = 0) ∧
        (s.pos ≠ s.rate → t.lanes = s.lanes ∧ i.val = s.pos.toNat) ∧
        i.val < s.rate.toNat ∧ t.pos.toNat = i.val + 1 ∧ t.rate = s.rate ∧
        t.suffix = s.suffix ∧ t.phase = .squeeze ∧ t.fault = false ∧ t.cause = s.cause ∧
        t.channel = s.channel ∧
        t.responses = s.responses ++ [{ rdata := byteAt t.lanes i, rstatus := t.status }])

/-- The model's own stop (log entry 4, not a rule): an index of S above 199 stops ABSORB, FINAL and
SQUEEZE under its own name. R25 rules these states out. -/
def Obligations.IndexOutsideStateStops : Prop :=
  ∀ (d : Byte) (s : State), s.fault = false →
    (s.phase = .absorb → 200 ≤ s.pos.toNat →
      exec (.absorb d) s = .fault .byteIndexOutOfRange ∧
      exec .final s = .fault .byteIndexOutOfRange) ∧
    (s.phase = .absorb → s.rate = 0 ∨ 200 < s.rate.toNat →
      exec .final s = .fault .byteIndexOutOfRange) ∧
    (s.phase = .squeeze → s.pos ≠ s.rate → 200 ≤ s.pos.toNat →
      exec .squeeze s = .fault .byteIndexOutOfRange)

/-! ### Faults (60_exceptions.md) -/

/-- NOT_CONFIGURED (R71): raised by ABSORB, FINAL and SQUEEZE in every state with PHASE = UNCONF; the
ABSORB 0x61 straight after reset shows STATUS = 0x00000034. -/
def Obligations.NotConfiguredBeforeInit : Prop :=
  (∀ (i : Instr) (s : State), s.fault = false → s.phase = .unconf → (∀ a b, i ≠ .init a b) →
    TakesFault .notConfigured s (exec i s)) ∧
  ∃ t : State, exec (.absorb 0x61) State.reset = .next t ∧ t.status = 0x00000034

/-- WRONG_PHASE (R72): raised by ABSORB or FINAL while PHASE = SQUEEZE and by SQUEEZE while
PHASE = ABSORB, in every such state. -/
def Obligations.WrongPhaseIsRefused : Prop :=
  ∀ s : State, s.fault = false →
    (s.phase = .squeeze → (∀ d, TakesFault .wrongPhase s (exec (.absorb d) s)) ∧
      TakesFault .wrongPhase s (exec .final s)) ∧
    (s.phase = .absorb → TakesFault .wrongPhase s (exec .squeeze s))

/-- Fault entry is precise (R74): whenever a command word makes an engine with FAULT = 0 faulted, the
answer is the fault entry of the cause recorded, one of the four codes, and nothing else changed. -/
def Obligations.FaultEntryIsPrecise : Prop :=
  ∀ (w : Word) (s t : State), s.fault = false → performWord w s = .next t → t.fault = true →
    t.cause ≠ .none ∧ TakesFault t.cause s (performWord w s)

/-- The faulted state (R75): while FAULT = 1 every command word, legal or not, is accepted and
ignored, with the response (0x00, STATUS). -/
def Obligations.FaultedEngineIgnoresEveryWord : Prop :=
  ∀ (w : Word) (s : State) (rest : List Event), s.fault = true → s.channel = .command w :: rest →
    Ignores { s with channel := rest } (step s)

/-- Leaving the fault (R76): only a reset clears FAULT, and a reset does; every other step of a
faulted engine keeps FAULT, CAUSE and all the registers. -/
def Obligations.OnlyResetLeavesTheFault : Prop :=
  ∀ s t : State, s.fault = true → step s = .next t →
    (t.fault = false ↔
      ∃ rest, s.channel = .reset :: rest ∨ ∃ w, s.channel = .resetDuring w :: rest) ∧
    (t.fault = true → t.cause = s.cause ∧ t.lanes = s.lanes ∧ t.rate = s.rate ∧
      t.suffix = s.suffix ∧ t.pos = s.pos ∧ t.phase = s.phase)

/-- The order of the checks (R73): a faulted engine ignores the word; else an illegal word takes
ILLEGAL_COMMAND, before any check of rate or phase; else the command is performed. -/
def Obligations.ChecksRunInOrder : Prop :=
  ∀ (w : Word) (s : State),
    (s.fault = true → Ignores s (performWord w s)) ∧
    (s.fault = false → ∀ why, decode w = .illegal why →
      TakesFault .illegalCommand s (performWord w s)) ∧
    (s.fault = false → ∀ i, decode w = .legal i → performWord w s = exec i s)

/-! ### Responses, order and the step (10_state.md, 20_memory.md) -/

/-- One response for each accepted command word (R24): its rstatus is STATUS after the command, and
its rdata is 0x00 but for a SQUEEZE that succeeds, whose rdata is the byte below the new POS. -/
def Obligations.OneResponsePerCommand : Prop :=
  ∀ (w : Word) (s t : State), performWord w s = .next t →
    ∃ d : Byte, t.responses = s.responses ++ [{ rdata := d, rstatus := t.status }] ∧
      t.channel = s.channel ∧
      (¬(decode w = .legal .squeeze ∧ t.fault = false) → d = 0x00) ∧
      (decode w = .legal .squeeze → t.fault = false →
        ∃ i : Fin 200, i.val + 1 = t.pos.toNat ∧ d = byteAt t.lanes i)

/-- A step takes the event at the head of the channel: a word that decodes to a command runs that
command and nothing else, with the event gone from the channel; with nothing presented the engine
holds all state (20_memory.md R29; 60_exceptions.md R83). That a word placed by withFetchWord, ahead of
all that waits, runs next is the model's choice, log entry 2. -/
def Obligations.StepRunsTheDecodedCommand : Prop :=
  (∀ (s : State) (w : Word) (rest : List Event) (i : Instr),
    s.channel = .command w :: rest → decode w = .legal i →
      step s = exec i { s with channel := rest }) ∧
  (∀ s : State, s.channel = [] → step s = .next s) ∧
  (∀ (s : State) (i : Instr), step (s.withFetchWord 32 (encode i).toNat) = exec i s)

/-- What waits on the channel waits unchanged and in order: a step takes the event at the head, a
command word with its one response (R88) or a reset with none (R85), and leaves the others. That the
events behind a reset stay is the model's choice, log entry 3. -/
def Obligations.WaitingCommandsWaitUnchanged : Prop :=
  ∀ (s t : State) (e : Event) (rest : List Event), s.channel = e :: rest → step s = .next t →
    t.channel = rest ∧
    ((∃ w, e = .command w) → t.responses.length = s.responses.length + 1) ∧
    ((∀ w, e ≠ .command w) → t.responses = s.responses)

/-- Commands take effect in the order the host issues them, each on the state its predecessor left
(R35): stepping through a channel of words performs them one after the other. -/
def Obligations.ChannelRunsInIssueOrder : Prop :=
  ∀ (is : List Instr) (s : State), s.channel = [] →
    Host.Core.run Sys2Proof.core is.length (s.present is) = performAll is s

/-- Responses return in the same order, one per command (R35): those already given stay, and each
command adds one. -/
def Obligations.ResponsesReturnInOrder : Prop :=
  ∀ (is js : List Instr) (s u : State), performAll (is ++ js) s = .next u →
    ∃ t : State, performAll is s = .next t ∧ performAll js t = .next u ∧
      s.responses <+: t.responses ∧ t.responses <+: u.responses ∧
      t.responses.length = s.responses.length + is.length ∧
      u.responses.length = t.responses.length + js.length

/-! ### What the commands change -/

/-- RATE and SUFFIX are written by INIT only, and to its operands (R18, R19). -/
def Obligations.OnlyInitWritesRateAndSuffix : Prop :=
  ∀ (i : Instr) (s t : State), exec i s = .next t →
    (t.rate = s.rate ∧ t.suffix = s.suffix) ∨
    ∃ a b, i = .init a b ∧ t.rate = a ∧ t.suffix = b ∧ 1 ≤ a.toNat ∧ a.toNat ≤ 200

/-- The transitions of PHASE (R21): INIT to ABSORB, FINAL from ABSORB to SQUEEZE, reset to UNCONF; no
other step changes it. -/
def Obligations.PhaseChangesAsListed : Prop :=
  ∀ s t : State, step s = .next t → t.phase ≠ s.phase →
    (∃ w rest a b, s.channel = .command w :: rest ∧ decode w = .legal (.init a b) ∧
      t.phase = .absorb) ∨
    (∃ w rest, s.channel = .command w :: rest ∧ decode w = .legal .final ∧
      s.phase = .absorb ∧ t.phase = .squeeze) ∨
    (∃ rest, (s.channel = .reset :: rest ∨ ∃ w, s.channel = .resetDuring w :: rest) ∧
      t.phase = .unconf)

/-- The frame of ABSORB and SQUEEZE (R30, R60, R62): RATE, SUFFIX and PHASE stay; a SQUEEZE with
POS ≠ RATE stores nothing, an ABSORB that does not fill the block stores to S[POS] only, and one that
faults or is ignored stores nothing; the fault record changes only by a fault. -/
def Obligations.AbsorbAndSqueezeFrame : Prop :=
  ∀ (d : Byte) (s t : State),
    (exec (.absorb d) s = .next t →
      t.rate = s.rate ∧ t.suffix = s.suffix ∧ t.phase = s.phase ∧ t.channel = s.channel ∧
      (t.fault = s.fault → t.cause = s.cause) ∧
      (t.fault = true → t.lanes = s.lanes ∧ t.pos = s.pos) ∧
      (s.pos + 1 ≠ s.rate → ∀ i : Fin 200, i.val ≠ s.pos.toNat →
        byteAt t.lanes i = byteAt s.lanes i)) ∧
    (exec .squeeze s = .next t →
      t.rate = s.rate ∧ t.suffix = s.suffix ∧ t.phase = s.phase ∧ t.channel = s.channel ∧
      (t.fault = s.fault → t.cause = s.cause) ∧
      (t.fault = true → t.lanes = s.lanes ∧ t.pos = s.pos) ∧
      (s.pos ≠ s.rate → t.lanes = s.lanes))

/-- The frame of INIT and FINAL (R59, R61): the channel stays, and FAULT and CAUSE stay unless the
command faults; one that faults or is ignored changes no register; FINAL keeps RATE and SUFFIX. -/
def Obligations.InitAndFinalFrame : Prop :=
  ∀ (i : Instr) (s t : State), i = .final ∨ (∃ a b, i = .init a b) → exec i s = .next t →
    t.channel = s.channel ∧ (t.fault = s.fault → t.cause = s.cause) ∧
    (t.fault = true → t.lanes = s.lanes ∧ t.rate = s.rate ∧ t.suffix = s.suffix ∧
      t.pos = s.pos ∧ t.phase = s.phase) ∧
    (i = .final → t.rate = s.rate ∧ t.suffix = s.suffix)

/-- The capacity part S[RATE..199] changes only through KeccakF and INIT (R30): a command that
performs no permutation and is no INIT leaves each of its bytes. -/
def Obligations.CapacityChangesOnlyByPermutation : Prop :=
  ∀ (i : Instr) (s t : State), s.Inv → exec i s = .next t → work i s = 0 →
    (∀ a b, i ≠ .init a b) →
    ∀ j : Fin 200, s.rate.toNat ≤ j.val → byteAt t.lanes j = byteAt s.lanes j

/-- S is seen only through SQUEEZE (R28, R30): two engines that differ in S alone answer every word
but a SQUEEZE alike, in every register and response, and a SQUEEZE that does not permute answers
alike when the one byte S[POS] is the same. -/
def Obligations.StateIsSeenOnlyThroughSqueeze : Prop :=
  ∀ (w : Word) (s t : State) (A : Lanes),
    (decode w = .legal .squeeze → s.pos ≠ s.rate ∧
      ∀ i : Fin 200, i.val = s.pos.toNat → byteAt A i = byteAt s.lanes i) →
    performWord w s = .next t →
    ∃ B : Lanes, performWord w { s with lanes := A } = .next { t with lanes := B }

/-! ### Invariants (10_state.md R25) -/

/-- The reset state meets the invariants. -/
def Obligations.ResetStateMeetsInvariants : Prop := State.reset.Inv

/-- Every step keeps the invariants of R25. -/
def Obligations.StepKeepsInvariants : Prop :=
  ∀ s t : State, s.Inv → step s = .next t → t.Inv

/-- From a state that meets the invariants no step stops: every word and every event is answered with
a next state (60_exceptions.md R73 to R75; the model's own stops are out of reach). -/
def Obligations.NoStopUnderInvariants : Prop :=
  ∀ s : State, s.Inv → ∃ t : State, step s = .next t

/-! ### The permutation (40_permutation.md) -/

/-- ROTL64 (R48) is the left rotation by o mod 64: bit k goes to bit (k + o) mod 64, and an offset
that is a multiple of 64 returns the lane. -/
def Obligations.RotlMovesEachBit : Prop :=
  ∀ (v : Lane) (o : Nat),
    (∀ k, k < 64 → (rotl64 v o).getLsbD ((k + o) % 64) = v.getLsbD k) ∧
    (o % 64 = 0 → rotl64 v o = v)

/-- Theta (R49): each lane takes the parity of column x−1 and the parity of column x+1 rotated by
one; a state whose every column has even parity is unchanged. -/
def Obligations.ThetaFollowsItsRule : Prop :=
  ∀ A : Lanes,
    (∀ x y, x < 5 → y < 5 →
      let C : Nat → Lane := fun u =>
        laneAt A u 0 ^^^ laneAt A u 1 ^^^ laneAt A u 2 ^^^ laneAt A u 3 ^^^ laneAt A u 4
      laneAt (theta A) x y =
        laneAt A x y ^^^ (C ((x + 4) % 5) ^^^ rotl64 (C ((x + 1) % 5)) 1)) ∧
    ((∀ x, x < 5 → columnParity A x = 0) → theta A = A)

/-- Rho+pi: the walk of R50 is the closed form of R52 with the offsets of R51: lane (x,y) goes to
(y, (2x+3y) mod 5), rotated by rot[x,y]. -/
def Obligations.RhoPiWalkIsTheClosedForm : Prop :=
  ∀ A : Lanes, rhoPi A = rhoPiClosed A ∧
    ∀ x y, x < 5 → y < 5 →
      laneAt (rhoPi A) y ((2 * x + 3 * y) % 5) = rotl64 (laneAt A x y) (rhoOffset x y)

/-- The offsets of R51 are those the walk gives: the lane the walk carries at step t is rotated by
the triangular number (t+1)(t+2)/2 mod 64 (R50, R51). -/
def Obligations.RhoOffsetsAreTheWalks : Prop :=
  rhoOffset 0 0 = 0 ∧
  ∀ t, t < 24 →
    let p : Nat × Nat := (List.range t).foldl (fun q _ => (q.2, (2 * q.1 + 3 * q.2) % 5)) (1, 0)
    rhoOffset p.1 p.2 = (t + 1) * (t + 2) / 2 % 64

/-- Chi (R53): each lane takes the complement of the next AND the one after, from the row before chi;
a row of zeros or of ones is unchanged. -/
def Obligations.ChiFollowsItsRule : Prop :=
  ∀ (A : Lanes) (y : Nat), y < 5 →
    (∀ x, x < 5 → laneAt (chi A) x y =
      laneAt A x y ^^^ (~~~laneAt A ((x + 1) % 5) y &&& laneAt A ((x + 2) % 5) y)) ∧
    ((∀ x, x < 5 → laneAt A x y = 0) → ∀ x, x < 5 → laneAt (chi A) x y = 0) ∧
    ((∀ x, x < 5 → laneAt A x y = BitVec.allOnes 64) →
      ∀ x, x < 5 → laneAt (chi A) x y = BitVec.allOnes 64)

/-- The LFSR (R54) from its seed: never 0 in the 168 steps of a permutation, and 0x8E after them. -/
def Obligations.LfsrStaysAliveForOnePermutation : Prop :=
  (∀ n, n ≤ 168 → lfsrNext^[n] 0x01 ≠ 0) ∧ lfsrNext^[168] 0x01 = 0x8E

/-- Iota (R55), whatever the LFSR holds, changes lane (0,0) only, and of it only the bits 0, 1, 3, 7,
15, 31 and 63. -/
def Obligations.IotaTouchesSevenBits : Prop :=
  ∀ (A : Lanes) (L : Byte) (x y k : Nat), x < 5 → y < 5 → k < 64 →
    ¬(x = 0 ∧ y = 0 ∧ k ∈ [0, 1, 3, 7, 15, 31, 63]) →
    (laneAt (iota A L).1 x y).getLsbD k = (laneAt A x y).getLsbD k

/-- The round constants (R56): in round i the seven LFSR steps of iota XOR RC[i] into A[0,0]. -/
def Obligations.IotaIsTheRoundConstant : Prop :=
  ∀ (A : Lanes) (i : Fin 24), ∃ rc : Lane, roundConstants[i.val]? = some rc ∧
    iota A (lfsrNext^[7 * i.val] 0x01) =
      (writeLane A 0 0 (laneAt A 0 0 ^^^ rc), lfsrNext^[7 * i.val + 7] 0x01)

/-- KeccakF from the walk and the LFSR (R50, R54, R55, R58) is KeccakF from the closed form and the
tables of offsets and round constants (R51, R52, R56, R57). -/
def Obligations.KeccakIsItsTableForm : Prop :=
  ∀ A : Lanes, keccakF A = keccakFTable A

/-! ### What the commands compute (41_sponge.md, section 2) -/

/-- Byte-serial absorption is block absorption (R64): after INIT and the ABSORBs of M, from any state
with FAULT = 0, the state is the one the block loop leaves, POS = L mod R, and ⌊L/R⌋ permutations
have run. -/
def Obligations.ByteAbsorptionIsBlockAbsorption : Prop :=
  ∀ (r suffix : Byte) (m : List Byte) (s : State), 1 ≤ r.toNat → r.toNat ≤ 200 →
    s.fault = false →
    ∃ t : State, performAll (.init r suffix :: m.map Instr.absorb) s = .next t ∧
      t.lanes = absorbMessage r.toNat m ∧ t.pos.toNat = m.length % r.toNat ∧
      t.rate = r ∧ t.suffix = suffix ∧ t.phase = .absorb ∧ t.fault = false ∧
      totalWork (.init r suffix :: m.map Instr.absorb) s = m.length / r.toNat

/-- Padding (R65): FINAL, in PHASE = ABSORB after the bytes of a message, leaves for s ≠ 0 the state
that the message's bits, the suffix bits s[k−1:0] and pad10*1 leave when they are absorbed as whole
blocks, and for s = 0 adds only the last padding bit; so it does after INIT and the ABSORBs of the
message, from any state with FAULT = 0; and so does the padding of the block-by-block sponge. The
pre-permute runs exactly when k = 7 and POS = RATE − 1, never for 0x06 or 0x1F. -/
def Obligations.FinalIsPad101 : Prop :=
  (∀ (m : List Byte) (s : State), s.fault = false → s.phase = .absorb →
    1 ≤ s.rate.toNat → s.rate.toNat ≤ 200 →
    s.lanes = absorbMessage s.rate.toNat m → s.pos.toNat = m.length % s.rate.toNat →
    ∃ t : State, exec .final s = .next t ∧ t.phase = .squeeze ∧ t.pos = 0 ∧
      (s.suffix ≠ 0 →
        t.lanes = absorbMessage s.rate.toNat (bytesOfBits (paddedBits s.rate.toNat s.suffix m))) ∧
      (s.suffix = 0 → ∀ last : Fin 200, last.val = s.rate.toNat - 1 →
        t.lanes = keccakF (xorByte s.lanes last 0x80))) ∧
  (∀ (r suffix : Byte) (m : List Byte) (s : State), 1 ≤ r.toNat → r.toNat ≤ 200 →
    s.fault = false →
    ∃ t : State, performAll (.init r suffix :: (m.map Instr.absorb ++ [.final])) s = .next t ∧
      t.fault = false ∧
      (suffix ≠ 0 →
        t.lanes = absorbMessage r.toNat (bytesOfBits (paddedBits r.toNat suffix m))) ∧
      (suffix = 0 → ∀ last : Fin 200, last.val = r.toNat - 1 →
        t.lanes = keccakF (xorByte (absorbMessage r.toNat m) last 0x80))) ∧
  (∀ (rate : Nat) (s : Byte) (m : List Byte) (p last : Fin 200), 1 ≤ rate → rate ≤ 200 →
    p.val = m.length % rate → last.val = rate - 1 →
    (s ≠ 0 → padBlock s p last (absorbMessage rate m) =
      absorbMessage rate (bytesOfBits (paddedBits rate s m))) ∧
    (s = 0 → padBlock s p last (absorbMessage rate m) =
      keccakF (xorByte (absorbMessage rate m) last 0x80))) ∧
  ∀ t : State, 1 ≤ t.rate.toNat →
    (t.suffix ≠ 0 → (prePermutes t = true ↔
      t.suffix.toNat.log2 = 7 ∧ t.pos.toNat = t.rate.toNat - 1)) ∧
    (t.suffix = 0 ∨ t.suffix = 0x06 ∨ t.suffix = 0x1F → prePermutes t = false)

/-- The sponge function (R63, R64, R66): the command words INIT, ABSORB for each message byte, FINAL
and n SQUEEZEs, run from any state with FAULT = 0, raise no fault, and the data of the last n
responses are the n bytes of the block-by-block sponge of the source. -/
def Obligations.CommandsComputeTheSponge : Prop :=
  ∀ (r suffix : Byte) (m : List Byte) (n : Nat) (s : State) (h : 1 ≤ r.toNat ∧ r.toNat ≤ 200),
    s.fault = false → s.channel = [] →
    ∃ t : State,
      Host.Core.run Sys2Proof.core (m.length + n + 2) (s.present (hashSequence r suffix m n)) =
        .next t ∧
      t.fault = false ∧ t.channel = [] ∧
      (newData s t).length = m.length + n + 2 ∧
      (newData s t).drop (m.length + 2) = blockSponge r.toNat h suffix m n

/-- A host that keeps to the protocol reaches no fault (R73, R87): any number of hashes one after the
other, each INIT with 1 ≤ A ≤ 200, its ABSORBs, one FINAL and its SQUEEZEs, run from a state with
FAULT = 0, end with FAULT = 0. -/
def Obligations.HostProtocolReachesNoFault : Prop :=
  ∀ (hashes : List (Byte × Byte × List Byte × Nat)) (s : State),
    (∀ h ∈ hashes, 1 ≤ h.1.toNat ∧ h.1.toNat ≤ 200) → s.fault = false → s.channel = [] →
    let words := hashes.flatMap fun h => hashSequence h.1 h.2.1 h.2.2.1 h.2.2.2
    SafeRun words.length (s.present words)

/-- A hash does not depend on what the engine did before (R63): from any two states with FAULT = 0
the same command sequence gives the same responses. -/
def Obligations.HashForgetsTheHistory : Prop :=
  ∀ (r suffix : Byte) (m : List Byte) (n : Nat) (s s' : State), 1 ≤ r.toNat → r.toNat ≤ 200 →
    s.fault = false → s'.fault = false → s.FaultRecorded → s'.FaultRecorded →
    ∃ (t t' : State) (rs : List Response),
      performAll (hashSequence r suffix m n) s = .next t ∧
      performAll (hashSequence r suffix m n) s' = .next t' ∧
      t.responses = s.responses ++ rs ∧ t'.responses = s'.responses ++ rs

/-- Squeezing is prefix-stable and restartable (R66): the output of n₁ SQUEEZEs is the beginning of
the output of n₁ + n₂, and stopping after n₁ and going on gives the same stream. -/
def Obligations.SqueezingIsPrefixStable : Prop :=
  ∀ (n₁ n₂ : Nat) (s : State), s.fault = false → s.phase = .squeeze → s.SqueezeBounds →
    ∃ t u : State, performAll (List.replicate n₁ .squeeze) s = .next t ∧
      performAll (List.replicate n₂ .squeeze) t = .next u ∧
      performAll (List.replicate (n₁ + n₂) .squeeze) s = .next u ∧
      (newData s t).length = n₁ ∧ newData s u = newData s t ++ newData t u

/-- The permutation count (R67): a complete hash applies KeccakF ⌊L/R⌋ + 1 + p + q times. -/
def Obligations.PermutationCountOfAHash : Prop :=
  ∀ (r suffix : Byte) (m : List Byte) (n : Nat) (s : State), 1 ≤ r.toNat → r.toNat ≤ 200 →
    s.fault = false →
    totalWork (hashSequence r suffix m n) s =
      m.length / r.toNat + 1 +
        (if suffix.getLsbD 7 = true ∧ m.length % r.toNat = r.toNat - 1 then 1 else 0) +
        (if n = 0 then 0 else (n + r.toNat - 1) / r.toNat - 1)

/-- The work of a command (R91) is the number of KeccakF applications in its effect: none for INIT,
none or one for ABSORB and SQUEEZE, one or two for FINAL. -/
def Obligations.WorkCountsThePermutations : Prop :=
  ∀ (s t : State), s.fault = false → t.fault = false →
    (∀ a b, exec (.init a b) s = .next t → work (.init a b) s = 0 ∧ t.lanes = Lanes.zero) ∧
    (∀ d, exec (.absorb d) s = .next t → work (.absorb d) s ≤ 1 ∧
      ∃ i : Fin 200, i.val = s.pos.toNat ∧
        t.lanes = keccakF^[work (.absorb d) s] (xorByte s.lanes i d)) ∧
    (exec .final s = .next t → 1 ≤ work .final s ∧ work .final s ≤ 2 ∧
      ∃ i j : Fin 200, i.val = s.pos.toNat ∧ j.val + 1 = s.rate.toNat ∧
        t.lanes =
          keccakF (xorByte (keccakF^[work .final s - 1] (xorByte s.lanes i s.suffix)) j 0x80)) ∧
    (exec .squeeze s = .next t → work .squeeze s ≤ 1 ∧
      t.lanes = keccakF^[work .squeeze s] s.lanes)

/-! ### Platform and assembler -/

/-- Engines share nothing (60_exceptions.md R81): a step of engine k leaves every other engine's
state, and what engine k does is the same on every platform that holds it in the same state. -/
def Obligations.EnginesShareNothing : Prop :=
  ∀ (k : Nat) (p q : Platform), platformStep k p = .next q →
    q.length = p.length ∧ (∀ j, j ≠ k → q[j]? = p[j]?) ∧
    ∀ p' : Platform, p'[k]? = p[k]? →
      ∃ q' : Platform, platformStep k p' = .next q' ∧ q'[k]? = q[k]?

/-- The assembler on the four command forms (R43): a line assembles to its one word when its operands
fit in 8 bits, whatever the rate, and is refused when one does not. -/
def Obligations.AssemblerChecksOperands : Prop :=
  ∀ a b : Nat,
    (a < 256 → b < 256 →
      assembleWords (.init a b) = some [BitVec.ofNat 32 (1 + 256 * a + 65536 * b)]) ∧
    (¬(a < 256 ∧ b < 256) → assembleWords (.init a b) = none) ∧
    (a < 256 → assembleWords (.absorb a) = some [BitVec.ofNat 32 (2 + 256 * a)]) ∧
    (¬a < 256 → assembleWords (.absorb a) = none) ∧
    assembleWords .final = some [0x00000003] ∧ assembleWords .squeeze = some [0x00000004]

/-- The variant pseudo-instructions give the words of R46's table. -/
def Obligations.VariantsAssembleToTheirWords : Prop :=
  assembleWords (.variant .shake128) = some [0x001FA801] ∧
  assembleWords (.variant .shake256) = some [0x001F8801] ∧
  assembleWords (.variant .sha3_224) = some [0x00069001] ∧
  assembleWords (.variant .sha3_256) = some [0x00068801] ∧
  assembleWords (.variant .sha3_384) = some [0x00066801] ∧
  assembleWords (.variant .sha3_512) = some [0x00064801]

/-- ABSORBS, SQUEEZEN, HASH and XOF expand as R44, R45 and R47 say: one ABSORB per byte in order, the
byte of a character its 8-bit code and that of two hexadecimal digits 16 times the first and the
second; n SQUEEZEs; and the variant's INIT, the ABSORBs, FINAL and the SQUEEZEs. That the letters of
the digits may be of either case, that an odd number of digits is refused, and that HASH of a SHAKE
and XOF of a digest are refused, is the model's choice, log entry 10. -/
def Obligations.PseudoInstructionsExpand : Prop :=
  (∀ cs : List Char, (∀ c ∈ cs, c.toNat < 128 ∧ c ≠ quoteChar) →
    assemble (.absorbs (.text cs)) = some (cs.map fun c => .absorb (BitVec.ofNat 8 c.toNat))) ∧
  (let digit (d : Fin 16 × Bool) : Char :=
      (if d.2 then "0123456789ABCDEF".toList else "0123456789abcdef".toList).getD d.1.val '0'
    ∀ ps : List ((Fin 16 × Bool) × (Fin 16 × Bool)),
      assemble (.absorbs (.hex (ps.flatMap fun p => [digit p.1, digit p.2]))) =
        some (ps.map fun p => .absorb (BitVec.ofNat 8 (16 * p.1.1.val + p.2.1.val)))) ∧
  (∀ ds : List Char, ds.length % 2 = 1 → assemble (.absorbs (.hex ds)) = none) ∧
  (∀ n, assemble (.squeezen n) = some (List.replicate n .squeeze)) ∧
  (∀ (v : Variant) (bs : AsmBytes) (n : Nat), bs.wellFormed = true →
    (v ∈ [.sha3_224, .sha3_256, .sha3_384, .sha3_512] →
      assemble (.hash v bs) =
        some (hashSequence v.rate v.suffix bs.bytes
          (match v with
            | .sha3_224 => 28 | .sha3_256 => 32 | .sha3_384 => 48 | .sha3_512 => 64 | _ => 0)) ∧
      assemble (.xof v bs n) = none) ∧
    (v ∈ [.shake128, .shake256] →
      assemble (.xof v bs n) = some (hashSequence v.rate v.suffix bs.bytes n) ∧
      assemble (.hash v bs) = none))

/-- The six standard functions (R46, R47, R63): the commands the assembler gives for HASH and XOF,
performed from any state with FAULT = 0, return the sponge of the variant's rate and suffix. -/
def Obligations.StandardFunctionsAreTheSponge : Prop :=
  ∀ (v : Variant) (bs : AsmBytes) (n : Nat) (s : State), bs.wellFormed = true → s.fault = false →
    let returns (l : AsmLine) (rate : Nat) (h : 1 ≤ rate ∧ rate ≤ 200) (suffix : Byte) (k : Nat) :=
      ∃ (is : List Instr) (t : State), assemble l = some is ∧ performAll is s = .next t ∧
        t.fault = false ∧
        (newData s t).drop (bs.bytes.length + 2) = blockSponge rate h suffix bs.bytes k
    match v with
    | .shake128 => returns (.xof v bs n) 168 (by decide) 0x1F n
    | .shake256 => returns (.xof v bs n) 136 (by decide) 0x1F n
    | .sha3_224 => returns (.hash v bs) 144 (by decide) 0x06 28
    | .sha3_256 => returns (.hash v bs) 136 (by decide) 0x06 32
    | .sha3_384 => returns (.hash v bs) 104 (by decide) 0x06 48
    | .sha3_512 => returns (.hash v bs) 72 (by decide) 0x06 64

/-- Lines of text read as R43's and R44's examples say, and R44's string also in its hexadecimal
form. -/
def Obligations.SampleLinesAssemble : Prop :=
  assembleText "INIT 136, 0x06".toList = some [.init 136 0x06] ∧
  assembleText "ABSORB 0x61 ; a".toList = some [.absorb 0x61] ∧
  assembleText "FINAL".toList = some [.final] ∧
  assembleText "SQUEEZE".toList = some [.squeeze] ∧
  assembleText "INIT 201, 0x06".toList = some [.init 201 0x06] ∧
  assembleText "INIT 256, 0x06".toList = none ∧
  assembleText "ABSORBS \"abc\"".toList = some [.absorb 0x61, .absorb 0x62, .absorb 0x63] ∧
  assembleText "ABSORBS 0x616263".toList = some [.absorb 0x61, .absorb 0x62, .absorb 0x63] ∧
  assembleText "ABSORBS \"\"".toList = some []
end

