-- ==== Sys2Proof/Laws/Views.lean ====
section
/-! SUPPORT. The two views of the sponge state (10_state.md R16): reading after writing, and when two
states are the same. -/

namespace Sys2Proof.Machine

/-! ### The lane view -/

theorem laneIndex_val (x y : Nat) : (laneIndex x y).val = x % 5 + 5 * (y % 5) := rfl

theorem laneIndex_eq_iff (x y u v : Nat) :
    laneIndex x y = laneIndex u v ↔ x % 5 = u % 5 ∧ y % 5 = v % 5 := by
  rw [Fin.ext_iff, laneIndex_val, laneIndex_val]
  omega

/-- x and y arithmetic is mod 5 (R17). -/
theorem laneAt_mod (A : Lanes) (x y : Nat) : laneAt A (x % 5) (y % 5) = laneAt A x y := by
  exact congrArg (fun n : Fin 25 => A[n])
    ((laneIndex_eq_iff (x % 5) (y % 5) x y).2 ⟨Nat.mod_mod _ _, Nat.mod_mod _ _⟩)

theorem laneAt_writeLane_same (A : Lanes) (x y : Nat) (v : Lane) :
    laneAt (writeLane A x y v) x y = v := by
  simp [laneAt, writeLane]

theorem laneAt_writeLane_ne (A : Lanes) {x y u v : Nat} (l : Lane)
    (h : ¬(x % 5 = u % 5 ∧ y % 5 = v % 5)) :
    laneAt (writeLane A x y l) u v = laneAt A u v := by
  have hne : (laneIndex x y).val ≠ (laneIndex u v).val := fun e =>
    h ((laneIndex_eq_iff x y u v).1 (Fin.ext e))
  simp [laneAt, writeLane, hne]

/-- Reading any lane after a lane was written. -/
theorem laneAt_writeLane (A : Lanes) {x y u v : Nat} (l : Lane) (hx : x < 5) (hy : y < 5)
    (hu : u < 5) (hv : v < 5) :
    laneAt (writeLane A x y l) u v = if (x, y) = (u, v) then l else laneAt A u v := by
  split
  next h => cases h; exact laneAt_writeLane_same _ _ _ _
  next h =>
    refine laneAt_writeLane_ne _ _ fun e => h ?_
    rw [Nat.mod_eq_of_lt hx, Nat.mod_eq_of_lt hu, Nat.mod_eq_of_lt hy, Nat.mod_eq_of_lt hv] at e
    rw [e.1, e.2]

@[simp] theorem laneAt_lanesOf (f : Nat → Nat → Lane) (x y : Nat) :
    laneAt (lanesOf f) x y = f (x % 5) (y % 5) := by
  have h1 : (x % 5 + 5 * (y % 5)) % 5 = x % 5 := by omega
  have h2 : (x % 5 + 5 * (y % 5)) / 5 = y % 5 := by omega
  simp [laneAt, lanesOf, laneIndex_val, h1, h2]

/-- Two states with the same lanes are the same. -/
theorem lanes_ext {A B : Lanes} (h : ∀ x y, x < 5 → y < 5 → laneAt A x y = laneAt B x y) :
    A = B := by
  refine Vector.ext fun n hn => ?_
  have e : laneIndex (n % 5) (n / 5) = ⟨n, hn⟩ :=
    Fin.ext (by rw [laneIndex_val]; show _ = n; omega)
  have := h (n % 5) (n / 5) (by omega) (by omega)
  simpa [laneAt, e] using this

/-- A lane written twice holds what was written last. -/
theorem writeLane_writeLane (A : Lanes) {x y : Nat} (v w : Lane) (hx : x < 5) (hy : y < 5) :
    writeLane (writeLane A x y v) x y w = writeLane A x y w := by
  refine lanes_ext fun u z hu hz => ?_
  simp only [laneAt_writeLane _ _ hx hy hu hz]
  split <;> rfl

/-- Writing back what a lane holds changes nothing. -/
theorem writeLane_laneAt (A : Lanes) {x y : Nat} (hx : x < 5) (hy : y < 5) :
    writeLane A x y (laneAt A x y) = A := by
  refine lanes_ext fun u z hu hz => ?_
  rw [laneAt_writeLane _ _ hx hy hu hz]
  split
  next h => cases h; rfl
  next => rfl

/-! ### The byte view -/

/-- Bit k of A[x,y] is bit k mod 8 of S[8n + k div 8], n = x + 5y (R16). -/
theorem byteAt_getLsbD (A : Lanes) (i : Fin 200) (k : Nat) :
    (byteAt A i).getLsbD k = (decide (k < 8) && A[laneOfByte i].getLsbD (shiftOfByte i + k)) := by
  simp [byteAt, BitVec.getLsbD_extractLsb']

theorem insertByte_getLsbD (l : Lane) (k : Nat) (v : Byte) (b : Nat) (hb : b < 64) :
    (insertByte l k v).getLsbD b =
      if k ≤ b ∧ b < k + 8 then v.getLsbD (b - k) else l.getLsbD b := by
  have h255 : ∀ m, (0xFF : Lane).getLsbD m = decide (m < 8) := by
    intro m
    by_cases hm : m < 64
    · revert m; decide
    · rw [BitVec.getLsbD_of_ge _ _ (by omega)]; simp; omega
  simp only [insertByte, BitVec.getLsbD_or, BitVec.getLsbD_and, BitVec.getLsbD_not,
    BitVec.getLsbD_shiftLeft, BitVec.getLsbD_setWidth, h255, hb, decide_true, Bool.true_and]
  by_cases h1 : b < k
  · simp [h1, Nat.not_le.2 h1]
  · by_cases h2 : b < k + 8
    · have : b - k < 8 := by omega
      have h3 : b - k < 64 := by omega
      simp [h1, h2, this, h3, Nat.le_of_not_lt h1]
    · have : ¬b - k < 8 := by omega
      simp [h1, h2, this, BitVec.getLsbD_of_ge v (b - k) (by omega)]

theorem byteAt_writeByte_same (A : Lanes) (i : Fin 200) (v : Byte) :
    byteAt (writeByte A i v) i = v := by
  refine BitVec.eq_of_getLsbD_eq fun k hk => ?_
  have hs : shiftOfByte i + k < 64 := by unfold shiftOfByte; omega
  rw [byteAt_getLsbD]
  simp only [writeByte, hk, decide_true, Bool.true_and, Fin.getElem_fin, Vector.getElem_set_self]
  rw [insertByte_getLsbD _ _ _ _ hs, if_pos ⟨by omega, by omega⟩]
  congr 1
  omega

theorem byteAt_writeByte_ne (A : Lanes) {i j : Fin 200} (v : Byte) (h : i ≠ j) :
    byteAt (writeByte A i v) j = byteAt A j := by
  refine BitVec.eq_of_getLsbD_eq fun k hk => ?_
  have hs : shiftOfByte j + k < 64 := by unfold shiftOfByte; omega
  have hij : i.val ≠ j.val := fun e => h (Fin.ext e)
  rw [byteAt_getLsbD, byteAt_getLsbD]
  by_cases hl : laneOfByte i = laneOfByte j
  · have hd : i.val / 8 = j.val / 8 := congrArg Fin.val hl
    simp only [writeByte, hl, Fin.getElem_fin, Vector.getElem_set_self]
    rw [insertByte_getLsbD _ _ _ _ hs, if_neg]
    unfold shiftOfByte
    omega
  · have hd : (laneOfByte i).val ≠ (laneOfByte j).val := fun e => hl (Fin.ext e)
    simp [writeByte, Vector.getElem_set_ne, hd]

@[simp] theorem byteAt_xorByte_same (A : Lanes) (i : Fin 200) (v : Byte) :
    byteAt (xorByte A i v) i = byteAt A i ^^^ v := byteAt_writeByte_same A i _

theorem byteAt_xorByte_ne (A : Lanes) {i j : Fin 200} (v : Byte) (h : i ≠ j) :
    byteAt (xorByte A i v) j = byteAt A j := byteAt_writeByte_ne A _ h

/-- Two states with the same bytes are the same: there is one storage (R16). -/
theorem lanes_ext_bytes {A B : Lanes} (h : ∀ i, byteAt A i = byteAt B i) : A = B := by
  refine Vector.ext fun n hn => BitVec.eq_of_getLsbD_eq fun k hk => ?_
  have hi := congrArg (BitVec.getLsbD · (k % 8)) (h ⟨8 * n + k / 8, by omega⟩)
  have hl : (8 * n + k / 8) / 8 = n := by omega
  have hk8 : k % 8 < 8 := by omega
  have hm : 8 * ((8 * n + k / 8) % 8) + k % 8 = k := by omega
  simpa only [byteAt_getLsbD, laneOfByte, shiftOfByte, hl, hk8, hm, decide_true, Bool.true_and,
    Fin.getElem_fin] using hi

/-- XORs at two positions commute, the reason byte-serial absorption equals block absorption (R64). -/
theorem xorByte_comm (A : Lanes) {i j : Fin 200} (v w : Byte) (h : i ≠ j) :
    xorByte (xorByte A i v) j w = xorByte (xorByte A j w) i v := by
  refine lanes_ext_bytes fun k => ?_
  by_cases hi : i = k
  · subst hi
    simp [byteAt_xorByte_ne _ _ h.symm]
  · by_cases hj : j = k
    · subst hj
      simp [byteAt_xorByte_ne _ _ h]
    · simp [byteAt_xorByte_ne _ _ hi, byteAt_xorByte_ne _ _ hj]

/-- Reading any byte after a byte was XORed into. -/
theorem byteAt_xorByte (A : Lanes) (i j : Fin 200) (v : Byte) :
    byteAt (xorByte A i v) j = if j.val = i.val then byteAt A j ^^^ v else byteAt A j := by
  split
  next h => cases Fin.ext h; exact byteAt_xorByte_same _ _ _
  next h => exact byteAt_xorByte_ne _ _ fun e => h (congrArg Fin.val e).symm

/-- XORing zero changes nothing. -/
theorem xorByte_zero (A : Lanes) (i : Fin 200) : xorByte A i 0 = A := by
  refine lanes_ext_bytes fun j => ?_
  rw [byteAt_xorByte]
  simp

@[simp] theorem byteAt_zero (i : Fin 200) : byteAt Lanes.zero i = 0 := by
  simp [byteAt, Lanes.zero]

end Sys2Proof.Machine
end

