-- ==== Sys2Proof/Laws/BlockSponge.lean ====
section
/-! SUPPORT. The block-by-block sponge, one byte more: what another message byte does to the absorb
loop (41_sponge.md R64), and what the squeeze loop's output is made of (R66). -/

namespace Sys2Proof.Machine

theorem xorBlock_nil (A : Lanes) : xorBlock [] A = A := by simp [xorBlock]

/-- One byte more in a block is one XOR more. -/
theorem xorBlock_snoc (b : List Byte) (d : Byte) (A : Lanes) (i : Fin 200)
    (h : b.length = i.val) : xorBlock (b ++ [d]) A = xorByte (xorBlock b A) i d := by
  unfold xorBlock
  have : (List.finRange 200).zip (b ++ [d]) = (List.finRange 200).zip b ++ [(i, d)] := by
    apply List.ext_getElem
    · simp; omega
    · intro k h1 h2
      simp at h1
      by_cases hk : k < b.length
      · have hk2 : k < ((List.finRange 200).zip b).length := by simp; omega
        rw [List.getElem_append_left hk2]
        simp [List.getElem_append_left hk]
      · have hk1 : k = b.length := by omega
        have hk2 : ((List.finRange 200).zip b).length ≤ k := by simp; omega
        rw [List.getElem_append_right hk2]
        subst hk1
        simp
        exact Fin.ext (by simp; omega)
  rw [this, List.foldl_append]
  rfl

/-- A message byte more after `q` full blocks, with no permutation yet. -/
theorem absorbBlocks_snoc {R : Nat} (q : Nat) (m : List Byte) (A : Lanes) (d : Byte) (i : Fin 200)
    (hlen : m.length = R * q + i.val) :
    absorbBlocks R q (m ++ [d]) A = xorByte (absorbBlocks R q m A) i d := by
  induction q generalizing m A with
  | zero => exact xorBlock_snoc m d A i (by omega)
  | succ q ih =>
    have : R * (q + 1) = R * q + R := by ring
    simp only [absorbBlocks]
    rw [List.drop_append_of_le_length (by omega), List.take_append_of_le_length (by omega)]
    exact ih _ _ (by rw [List.length_drop]; omega)

/-- A message byte that fills its block. -/
theorem absorbBlocks_snoc_full {R : Nat} (q : Nat) (m : List Byte) (A : Lanes) (d : Byte)
    (i : Fin 200) (hlen : m.length = R * q + i.val) (hi : i.val + 1 = R) :
    absorbBlocks R (q + 1) (m ++ [d]) A = keccakF (xorByte (absorbBlocks R q m A) i d) := by
  induction q generalizing m A with
  | zero =>
    simp only [absorbBlocks]
    have hl : (m ++ [d]).length = R := by simp; omega
    rw [List.take_of_length_le (by omega), List.drop_of_length_le (by omega), xorBlock_nil,
      xorBlock_snoc m d A i (by omega)]
  | succ q ih =>
    have : R * (q + 1) = R * q + R := by ring
    rw [absorbBlocks, List.drop_append_of_le_length (by omega),
      List.take_append_of_le_length (by omega)]
    conv => rhs; rw [absorbBlocks]
    exact ih _ _ (by rw [List.length_drop]; omega)

theorem frontBytes_length {m : Nat} (A : Lanes) (h : m ≤ 200) : (frontBytes m A).length = m := by
  simp [frontBytes, h]

theorem frontBytes_take {n m : Nat} (A : Lanes) (h : n ≤ m) :
    (frontBytes m A).take n = frontBytes n A := by
  simp [frontBytes, ← List.map_take, List.take_take, Nat.min_eq_left h]

theorem frontBytes_drop {R p : Nat} (A : Lanes) (i : Fin 200) (hi : i.val = p) (h : p < R)
    (hR : R ≤ 200) : (frontBytes R A).drop p = byteAt A i :: (frontBytes R A).drop (p + 1) := by
  have hl : p < (frontBytes R A).length := by rw [frontBytes_length A hR]; exact h
  rw [List.drop_eq_getElem_cons hl]
  congr 1
  simp [frontBytes]
  congr 1
  exact Fin.ext (by simp [hi])

/-- The squeeze loop gives as many bytes as are asked for. -/
theorem squeezeBlocks_length {R : Nat} (hR1 : 1 ≤ R) (hR : R ≤ 200) (b : Nat) :
    ∀ n A, n ≤ b → (squeezeBlocks R b n A).length = n := by
  induction b with
  | zero => intro n A h; simp [squeezeBlocks]; omega
  | succ b ih =>
    intro n A h
    simp only [squeezeBlocks, List.length_append]
    rw [frontBytes_length _ (by omega), ih _ _ (by omega)]
    omega

/-- A shorter output is the beginning of a longer one. -/
theorem squeezeBlocks_take {R : Nat} (hR1 : 1 ≤ R) (hR : R ≤ 200) (b : Nat) :
    ∀ n b' n' A, n ≤ b → n' ≤ b' → n ≤ n' →
      (squeezeBlocks R b' n' A).take n = squeezeBlocks R b n A := by
  induction b with
  | zero =>
    intro n b' n' A h1 h2 h3
    have : n = 0 := by omega
    subst this
    simp [squeezeBlocks]
  | succ b ih =>
    intro n b' n' A h1 h2 h3
    by_cases hn : n = 0
    · subst hn
      have := squeezeBlocks_length hR1 hR (b + 1) 0 A (by omega)
      rw [List.length_eq_zero_iff] at this
      rw [this]
      simp
    · obtain ⟨b'', rfl⟩ : ∃ b'', b' = b'' + 1 := ⟨b' - 1, by omega⟩
      simp only [squeezeBlocks]
      rw [List.take_append, frontBytes_length _ (by omega)]
      by_cases hnR : n ≤ R
      · rw [frontBytes_take _ (by omega), Nat.min_eq_left hnR]
        have e : n - min n' R = 0 := by omega
        have := squeezeBlocks_length hR1 hR b (n - R) (keccakF A) (by omega)
        rw [show n - R = 0 by omega, List.length_eq_zero_iff] at this
        rw [e, show n - R = 0 by omega, this]
        simp
      · rw [List.take_of_length_le (by rw [frontBytes_length _ (by omega)]; omega),
          Nat.min_eq_right (by omega), Nat.min_eq_right (by omega)]
        rw [ih (n - R) b'' (n' - R) (keccakF A) (by omega) (by omega) (by omega)]

/-- The output is the front of the state, then the output of the permuted state, cut at `n`. -/
theorem squeezeBlocks_eq {R : Nat} (hR1 : 1 ≤ R) (hR : R ≤ 200) (n : Nat) (A : Lanes) :
    squeezeBlocks R n n A =
      (frontBytes R A ++ squeezeBlocks R n n (keccakF A)).take n := by
  cases n with
  | zero => simp [squeezeBlocks]
  | succ n =>
    rw [List.take_append, frontBytes_length _ hR]
    conv => lhs; rw [squeezeBlocks]
    rw [squeezeBlocks_take hR1 hR n (n + 1 - R) (n + 1) (n + 1) _ (by omega) (by omega) (by omega)]
    congr 1
    by_cases h : n + 1 ≤ R
    · rw [frontBytes_take _ h, Nat.min_eq_left h]
    · rw [Nat.min_eq_right (by omega),
        List.take_of_length_le (by rw [frontBytes_length _ hR]; omega)]

end Sys2Proof.Machine
end

