-- ==== Sys2Proof/Laws/State.lean ====
section
/-! SUPPORT. The fields of the state after each shared update: one lemma a field an update changes
or keeps, so that no proof unfolds a record update. -/

namespace Sys2Proof.Machine

@[simp] theorem respond_lanes (d : Byte) (s : State) : (respond d s).lanes = s.lanes := rfl
@[simp] theorem respond_rate (d : Byte) (s : State) : (respond d s).rate = s.rate := rfl
@[simp] theorem respond_suffix (d : Byte) (s : State) : (respond d s).suffix = s.suffix := rfl
@[simp] theorem respond_pos (d : Byte) (s : State) : (respond d s).pos = s.pos := rfl
@[simp] theorem respond_phase (d : Byte) (s : State) : (respond d s).phase = s.phase := rfl
@[simp] theorem respond_fault (d : Byte) (s : State) : (respond d s).fault = s.fault := rfl
@[simp] theorem respond_cause (d : Byte) (s : State) : (respond d s).cause = s.cause := rfl
@[simp] theorem respond_channel (d : Byte) (s : State) : (respond d s).channel = s.channel := rfl
@[simp] theorem respond_responses (d : Byte) (s : State) : (respond d s).responses = s.responses ++ [⟨d, s.status⟩] := rfl

@[simp] theorem raiseFault_lanes (c : Cause) (s : State) : (raiseFault c s).lanes = s.lanes := rfl
@[simp] theorem raiseFault_rate (c : Cause) (s : State) : (raiseFault c s).rate = s.rate := rfl
@[simp] theorem raiseFault_suffix (c : Cause) (s : State) : (raiseFault c s).suffix = s.suffix := rfl
@[simp] theorem raiseFault_pos (c : Cause) (s : State) : (raiseFault c s).pos = s.pos := rfl
@[simp] theorem raiseFault_phase (c : Cause) (s : State) : (raiseFault c s).phase = s.phase := rfl
@[simp] theorem raiseFault_fault (c : Cause) (s : State) : (raiseFault c s).fault = true := rfl
@[simp] theorem raiseFault_cause (c : Cause) (s : State) : (raiseFault c s).cause = c := rfl
@[simp] theorem raiseFault_channel (c : Cause) (s : State) : (raiseFault c s).channel = s.channel := rfl
@[simp] theorem raiseFault_responses (c : Cause) (s : State) : (raiseFault c s).responses = s.responses ++ [⟨0, (raiseFault c s).status⟩] := rfl

@[simp] theorem ignoreCommand_lanes (s : State) : (ignoreCommand s).lanes = s.lanes := rfl
@[simp] theorem ignoreCommand_rate (s : State) : (ignoreCommand s).rate = s.rate := rfl
@[simp] theorem ignoreCommand_suffix (s : State) : (ignoreCommand s).suffix = s.suffix := rfl
@[simp] theorem ignoreCommand_pos (s : State) : (ignoreCommand s).pos = s.pos := rfl
@[simp] theorem ignoreCommand_phase (s : State) : (ignoreCommand s).phase = s.phase := rfl
@[simp] theorem ignoreCommand_fault (s : State) : (ignoreCommand s).fault = s.fault := rfl
@[simp] theorem ignoreCommand_cause (s : State) : (ignoreCommand s).cause = s.cause := rfl
@[simp] theorem ignoreCommand_channel (s : State) : (ignoreCommand s).channel = s.channel := rfl
@[simp] theorem ignoreCommand_responses (s : State) : (ignoreCommand s).responses = s.responses ++ [⟨0, s.status⟩] := rfl

@[simp] theorem permute_lanes (s : State) : (permute s).lanes = keccakF s.lanes := rfl
@[simp] theorem permute_rate (s : State) : (permute s).rate = s.rate := rfl
@[simp] theorem permute_suffix (s : State) : (permute s).suffix = s.suffix := rfl
@[simp] theorem permute_pos (s : State) : (permute s).pos = s.pos := rfl
@[simp] theorem permute_phase (s : State) : (permute s).phase = s.phase := rfl
@[simp] theorem permute_fault (s : State) : (permute s).fault = s.fault := rfl
@[simp] theorem permute_cause (s : State) : (permute s).cause = s.cause := rfl
@[simp] theorem permute_channel (s : State) : (permute s).channel = s.channel := rfl
@[simp] theorem permute_responses (s : State) : (permute s).responses = s.responses := rfl

@[simp] theorem resetEngine_lanes (s : State) : (resetEngine s).lanes = Lanes.zero := rfl
@[simp] theorem resetEngine_rate (s : State) : (resetEngine s).rate = 0 := rfl
@[simp] theorem resetEngine_suffix (s : State) : (resetEngine s).suffix = 0 := rfl
@[simp] theorem resetEngine_pos (s : State) : (resetEngine s).pos = 0 := rfl
@[simp] theorem resetEngine_phase (s : State) : (resetEngine s).phase = .unconf := rfl
@[simp] theorem resetEngine_fault (s : State) : (resetEngine s).fault = false := rfl
@[simp] theorem resetEngine_cause (s : State) : (resetEngine s).cause = .none := rfl
@[simp] theorem resetEngine_channel (s : State) : (resetEngine s).channel = s.channel := rfl
@[simp] theorem resetEngine_responses (s : State) : (resetEngine s).responses = s.responses := rfl

@[simp] theorem withFetchWord_lanes (s : State) (nbits w : Nat) : (s.withFetchWord nbits w).lanes = s.lanes := rfl
@[simp] theorem withFetchWord_rate (s : State) (nbits w : Nat) : (s.withFetchWord nbits w).rate = s.rate := rfl
@[simp] theorem withFetchWord_suffix (s : State) (nbits w : Nat) : (s.withFetchWord nbits w).suffix = s.suffix := rfl
@[simp] theorem withFetchWord_pos (s : State) (nbits w : Nat) : (s.withFetchWord nbits w).pos = s.pos := rfl
@[simp] theorem withFetchWord_phase (s : State) (nbits w : Nat) : (s.withFetchWord nbits w).phase = s.phase := rfl
@[simp] theorem withFetchWord_fault (s : State) (nbits w : Nat) : (s.withFetchWord nbits w).fault = s.fault := rfl
@[simp] theorem withFetchWord_cause (s : State) (nbits w : Nat) : (s.withFetchWord nbits w).cause = s.cause := rfl
@[simp] theorem withFetchWord_channel (s : State) (nbits w : Nat) : (s.withFetchWord nbits w).channel = .command (BitVec.ofNat 32 (w % 2 ^ nbits)) :: s.channel := rfl
@[simp] theorem withFetchWord_responses (s : State) (nbits w : Nat) : (s.withFetchWord nbits w).responses = s.responses := rfl

@[simp] theorem present_lanes (s : State) (is : List Instr) : (s.present is).lanes = s.lanes := rfl
@[simp] theorem present_rate (s : State) (is : List Instr) : (s.present is).rate = s.rate := rfl
@[simp] theorem present_suffix (s : State) (is : List Instr) : (s.present is).suffix = s.suffix := rfl
@[simp] theorem present_pos (s : State) (is : List Instr) : (s.present is).pos = s.pos := rfl
@[simp] theorem present_phase (s : State) (is : List Instr) : (s.present is).phase = s.phase := rfl
@[simp] theorem present_fault (s : State) (is : List Instr) : (s.present is).fault = s.fault := rfl
@[simp] theorem present_cause (s : State) (is : List Instr) : (s.present is).cause = s.cause := rfl
@[simp] theorem present_channel (s : State) (is : List Instr) : (s.present is).channel = s.channel ++ is.map fun i => .command (encode i) := rfl
@[simp] theorem present_responses (s : State) (is : List Instr) : (s.present is).responses = s.responses := rfl

/-- STATUS is a view of the registers alone (R23): neither the channel nor the responses enter it. -/
@[simp] theorem status_respond (d : Byte) (s : State) : (respond d s).status = s.status := rfl
@[simp] theorem status_ignoreCommand (s : State) : (ignoreCommand s).status = s.status := rfl
@[simp] theorem status_raiseFault (c : Cause) (s : State) :
    (raiseFault c s).status = { s with fault := true, cause := c : State }.status := rfl
@[simp] theorem status_resetEngine (s : State) : (resetEngine s).status = 0 := by
  show State.reset.status = 0; decide

/-- A used-up block is permuted and begun again. -/
theorem renewBlock_of_eq {s : State} (h : s.pos = s.rate) :
    renewBlock s = { permute s with pos := 0 } := if_pos h

/-- A block with a byte left stays as it is. -/
theorem renewBlock_of_ne {s : State} (h : s.pos ≠ s.rate) : renewBlock s = s := if_neg h

@[simp] theorem renewBlock_rate (s : State) : (renewBlock s).rate = s.rate := by
  unfold renewBlock; split <;> rfl
@[simp] theorem renewBlock_suffix (s : State) : (renewBlock s).suffix = s.suffix := by
  unfold renewBlock; split <;> rfl
@[simp] theorem renewBlock_phase (s : State) : (renewBlock s).phase = s.phase := by
  unfold renewBlock; split <;> rfl
@[simp] theorem renewBlock_fault (s : State) : (renewBlock s).fault = s.fault := by
  unfold renewBlock; split <;> rfl
@[simp] theorem renewBlock_cause (s : State) : (renewBlock s).cause = s.cause := by
  unfold renewBlock; split <;> rfl
@[simp] theorem renewBlock_channel (s : State) : (renewBlock s).channel = s.channel := by
  unfold renewBlock; split <;> rfl
@[simp] theorem renewBlock_responses (s : State) : (renewBlock s).responses = s.responses := by
  unfold renewBlock; split <;> rfl
theorem renewBlock_lanes (s : State) :
    (renewBlock s).lanes = if s.pos = s.rate then keccakF s.lanes else s.lanes := by
  unfold renewBlock; split <;> rfl
theorem renewBlock_pos (s : State) :
    (renewBlock s).pos = if s.pos = s.rate then 0 else s.pos := by
  unfold renewBlock; split <;> rfl

end Sys2Proof.Machine
end

