-- ==== Sys2Proof/Laws/Ops.lean ====
section
/-! SUPPORT. What the shared operations answer, and what each command can do: one inversion lemma a
command, which later proofs cite instead of unfolding the command. -/

namespace Sys2Proof.Machine

/-! ### The checks -/

theorem unlessFaulted_of_fault {s : State} (h : s.fault = true) (k : Result) :
    unlessFaulted s k = .next (ignoreCommand s) := if_pos h

theorem unlessFaulted_of_not {s : State} (h : s.fault = false) (k : Result) :
    unlessFaulted s k = k := if_neg (by simp [h])

theorem inPhase_of_unconf {s : State} (h : s.phase = .unconf) (p : Phase) (k : Result) :
    inPhase p s k = .next (raiseFault .notConfigured s) := if_pos h

theorem inPhase_of_other {s : State} {p : Phase} (h : s.phase ≠ .unconf) (hp : s.phase ≠ p)
    (k : Result) : inPhase p s k = .next (raiseFault .wrongPhase s) := by
  simp [inPhase, h, hp]

theorem inPhase_of_eq {s : State} {p : Phase} (hp : s.phase = p) (h : p ≠ .unconf) (k : Result) :
    inPhase p s k = k := by
  subst hp; simp [inPhase, h]

theorem atByte_of_lt {p : Byte} (h : p.toNat < 200) (k : Fin 200 → Result) :
    atByte p k = k ⟨p.toNat, h⟩ := dif_pos h

theorem atByte_of_ge {p : Byte} (h : 200 ≤ p.toNat) (k : Fin 200 → Result) :
    atByte p k = .fault .byteIndexOutOfRange := dif_neg (Nat.not_lt.2 h)

theorem atByte_next {p : Byte} {k : Fin 200 → Result} {t : State} (h : atByte p k = .next t) :
    ∃ hp : p.toNat < 200, k ⟨p.toNat, hp⟩ = .next t := by
  by_cases hp : p.toNat < 200
  · exact ⟨hp, by rwa [atByte_of_lt hp] at h⟩
  · rw [atByte_of_ge (Nat.le_of_not_lt hp)] at h
    cases h

theorem rateLegal_iff (a : Byte) : rateLegal a = true ↔ 1 ≤ a.toNat ∧ a.toNat ≤ 200 := by
  have : a = 0 ↔ a.toNat = 0 := by rw [← BitVec.toNat_inj]; rfl
  simp only [rateLegal, Bool.and_eq_true, bne_iff_ne, ne_eq, decide_eq_true_eq, this]
  omega

/-! ### What a check lets through -/

/-- What a command that has passed no check can have done: nothing but a response, or a fault. -/
def Turned (s t : State) : Prop :=
  (s.fault = true ∧ t = ignoreCommand s) ∨ (s.fault = false ∧ ∃ c, c ≠ .none ∧ t = raiseFault c s)

theorem Turned.fault {s t : State} (h : Turned s t) : t.fault = true := by
  obtain ⟨hf, rfl⟩ | ⟨-, c, -, rfl⟩ := h
  · exact hf
  · rfl

/-- An answer behind the phase check: the command was turned away, or FAULT = 0 and the phase fits. -/
theorem inPhase_next {p : Phase} {s t : State} {k : Result} (hp : p ≠ .unconf)
    (h : unlessFaulted s (inPhase p s k) = .next t) :
    Turned s t ∨ (s.fault = false ∧ s.phase = p ∧ k = .next t) := by
  cases hf : s.fault with
  | true =>
    rw [unlessFaulted_of_fault hf] at h
    cases h
    exact .inl (.inl ⟨hf, rfl⟩)
  | false =>
    rw [unlessFaulted_of_not hf] at h
    by_cases hu : s.phase = .unconf
    · rw [inPhase_of_unconf hu] at h
      cases h
      exact .inl (.inr ⟨hf, .notConfigured, nofun, rfl⟩)
    · by_cases he : s.phase = p
      · rw [inPhase_of_eq he hp] at h
        exact .inr ⟨rfl, he, h⟩
      · rw [inPhase_of_other hu he] at h
        cases h
        exact .inl (.inr ⟨hf, .wrongPhase, nofun, rfl⟩)

/-! ### The commands -/

/-- The state INIT leaves when it accepts its rate. -/
def startHash (rate suffix : Byte) (s : State) : State :=
  { s with lanes := Lanes.zero, rate := rate, suffix := suffix, pos := 0, phase := .absorb }

/-- The state ABSORB leaves before a permutation. -/
def takeByte (data : Byte) (i : Fin 200) (s : State) : State :=
  { s with lanes := xorByte s.lanes i data, pos := s.pos + 1 }

/-- The lanes FINAL leaves. -/
def finalLanes (i last : Fin 200) (s : State) : Lanes :=
  keccakF (xorByte (if prePermutes s then keccakF (xorByte s.lanes i s.suffix)
    else xorByte s.lanes i s.suffix) last 0x80)

/-- The state FINAL leaves. -/
def closeHash (i last : Fin 200) (s : State) : State :=
  { s with lanes := finalLanes i last s, pos := 0, phase := .squeeze }

/-- The state SQUEEZE leaves. -/
def giveByte (s : State) : State := { renewBlock s with pos := (renewBlock s).pos + 1 }

theorem execInit_cases {a b : Byte} {s t : State} (h : exec (.init a b) s = .next t) :
    Turned s t ∨ (s.fault = false ∧ 1 ≤ a.toNat ∧ a.toNat ≤ 200 ∧
      t = respond 0 (startHash a b s)) := by
  replace h : execInit a b s = .next t := h
  cases hf : s.fault with
  | true =>
    rw [execInit, unlessFaulted_of_fault hf] at h
    cases h
    exact .inl (.inl ⟨hf, rfl⟩)
  | false =>
    rw [execInit, unlessFaulted_of_not hf] at h
    split at h
    next hr =>
      cases h
      exact .inr ⟨rfl, ((rateLegal_iff a).1 hr).1, ((rateLegal_iff a).1 hr).2, rfl⟩
    next =>
      cases h
      exact .inl (.inr ⟨hf, .illegalRate, nofun, rfl⟩)

theorem execAbsorb_cases {d : Byte} {s t : State} (h : exec (.absorb d) s = .next t) :
    Turned s t ∨ (s.fault = false ∧ s.phase = .absorb ∧ ∃ hp : s.pos.toNat < 200,
      t = respond 0 (renewBlock (takeByte d ⟨s.pos.toNat, hp⟩ s))) := by
  obtain h | ⟨hf, hph, h⟩ := inPhase_next (p := .absorb) nofun h
  · exact .inl h
  · obtain ⟨hp, h⟩ := atByte_next h
    cases h
    exact .inr ⟨hf, hph, hp, rfl⟩

theorem execFinal_cases {s t : State} (h : exec .final s = .next t) :
    Turned s t ∨ (s.fault = false ∧ s.phase = .absorb ∧ ∃ (hp : s.pos.toNat < 200)
      (hl : (s.rate - 1).toNat < 200),
      t = respond 0 (closeHash ⟨s.pos.toNat, hp⟩ ⟨(s.rate - 1).toNat, hl⟩ s)) := by
  obtain h | ⟨hf, hph, h⟩ := inPhase_next (p := .absorb) nofun h
  · exact .inl h
  · obtain ⟨hp, h⟩ := atByte_next h
    obtain ⟨hl, h⟩ := atByte_next h
    cases h
    exact .inr ⟨hf, hph, hp, hl, rfl⟩

theorem execSqueeze_cases {s t : State} (h : exec .squeeze s = .next t) :
    Turned s t ∨ (s.fault = false ∧ s.phase = .squeeze ∧
      ∃ hp : (renewBlock s).pos.toNat < 200,
        t = respond (byteAt (renewBlock s).lanes ⟨(renewBlock s).pos.toNat, hp⟩) (giveByte s)) := by
  obtain h | ⟨hf, hph, h⟩ := inPhase_next (p := .squeeze) nofun h
  · exact .inl h
  · obtain ⟨hp, h⟩ := atByte_next h
    cases h
    exact .inr ⟨hf, hph, hp, rfl⟩

/-- A word that is no command is turned away. -/
theorem refuseIllegal_cases {s t : State} (h : refuseIllegal s = .next t) : Turned s t := by
  cases hf : s.fault with
  | true =>
    rw [refuseIllegal, unlessFaulted_of_fault hf] at h
    cases h
    exact .inl ⟨hf, rfl⟩
  | false =>
    rw [refuseIllegal, unlessFaulted_of_not hf] at h
    cases h
    exact .inr ⟨hf, .illegalCommand, nofun, rfl⟩

/-- A faulted engine performs no command (R75). -/
theorem exec_of_fault {s : State} (h : s.fault = true) (i : Instr) :
    exec i s = .next (ignoreCommand s) := by
  cases i <;> exact unlessFaulted_of_fault h _

/-- What one word can do: it is turned away, or it is a command that is performed. -/
theorem performWord_cases {w : Word} {s t : State} (h : performWord w s = .next t) :
    ((∃ why, decode w = .illegal why) ∧ Turned s t) ∨
      ∃ i, decode w = .legal i ∧ exec i s = .next t := by
  unfold performWord at h
  split at h
  next why hd => exact .inl ⟨⟨why, hd⟩, refuseIllegal_cases h⟩
  next i hd => exact .inr ⟨i, hd, h⟩

/-- What one step can do: idle, one word, or a reset. -/
theorem step_cases {s t : State} (h : step s = .next t) :
    (s.channel = [] ∧ t = s) ∨
    (∃ w rest, s.channel = .command w :: rest ∧
      performWord w { s with channel := rest } = .next t) ∨
    (∃ rest, (s.channel = .reset :: rest ∨ ∃ w, s.channel = .resetDuring w :: rest) ∧
      t = { State.reset with channel := rest, responses := s.responses }) := by
  unfold step advance at h
  split at h
  next hc => cases h; exact .inl ⟨hc, rfl⟩
  next e rest hc =>
    cases e with
    | command w => exact .inr (.inl ⟨w, rest, hc, h⟩)
    | reset => cases h; exact .inr (.inr ⟨rest, .inl hc, rfl⟩)
    | resetDuring w => cases h; exact .inr (.inr ⟨rest, .inr ⟨w, hc⟩, rfl⟩)

end Sys2Proof.Machine
end

