-- ==== Sys2Proof/Laws/Commands.lean ====
section
/-! SUPPORT. What each command answers, forwards: from the checks it passes or fails to the state it
leaves; what no command changes; and that a command's answer depends neither on what waits on the
channel nor on the responses given before it. -/

namespace Sys2Proof.Machine

/-- A position below RATE advances without wrapping. -/
theorem pos_succ {p r : Byte} (h : p.toNat < r.toNat) : (p + 1).toNat = p.toNat + 1 := by
  have := r.isLt
  rw [BitVec.toNat_add]
  simp
  omega

/-- RATE − 1 of a rate above 0. -/
theorem rate_pred {r : Byte} (h : 1 ≤ r.toNat) : (r - 1).toNat = r.toNat - 1 := by
  have := r.isLt
  rw [BitVec.toNat_sub]
  simp
  omega

/-! ### Forwards -/

theorem execInit_of {a b : Byte} {s : State} (hf : s.fault = false)
    (h : 1 ≤ a.toNat ∧ a.toNat ≤ 200) :
    exec (.init a b) s = .next (respond 0 (startHash a b s)) := by
  show execInit a b s = _
  rw [execInit, unlessFaulted_of_not hf, if_pos ((rateLegal_iff a).2 h)]
  rfl

theorem execInit_of_illegalRate {a b : Byte} {s : State} (hf : s.fault = false)
    (h : ¬(1 ≤ a.toNat ∧ a.toNat ≤ 200)) :
    exec (.init a b) s = .next (raiseFault .illegalRate s) := by
  show execInit a b s = _
  rw [execInit, unlessFaulted_of_not hf, if_neg fun e => h ((rateLegal_iff a).1 e)]

theorem execAbsorb_of {d : Byte} {s : State} (hf : s.fault = false) (hp : s.phase = .absorb)
    (i : Fin 200) (hi : s.pos.toNat = i.val) :
    exec (.absorb d) s = .next (respond 0 (renewBlock (takeByte d i s))) := by
  obtain ⟨v, hv⟩ := i
  cases hi
  exact (unlessFaulted_of_not hf _).trans ((inPhase_of_eq hp nofun _).trans (atByte_of_lt hv _))

theorem execFinal_of {s : State} (hf : s.fault = false) (hp : s.phase = .absorb)
    (i last : Fin 200) (hi : s.pos.toNat = i.val) (hl : (s.rate - 1).toNat = last.val) :
    exec .final s = .next (respond 0 (closeHash i last s)) := by
  have h1 : s.pos.toNat < 200 := hi ▸ i.isLt
  have h2 : (s.rate - 1).toNat < 200 := hl ▸ last.isLt
  rw [show i = ⟨s.pos.toNat, h1⟩ from Fin.ext hi.symm,
    show last = ⟨(s.rate - 1).toNat, h2⟩ from Fin.ext hl.symm]
  exact (unlessFaulted_of_not hf _).trans ((inPhase_of_eq hp nofun _).trans
    ((atByte_of_lt h1 _).trans (atByte_of_lt h2 _)))

theorem execSqueeze_of {s : State} (hf : s.fault = false) (hp : s.phase = .squeeze)
    (i : Fin 200) (hi : (renewBlock s).pos.toNat = i.val) :
    exec .squeeze s = .next (respond (byteAt (renewBlock s).lanes i) (giveByte s)) := by
  obtain ⟨v, hv⟩ := i
  cases hi
  exact (unlessFaulted_of_not hf _).trans ((inPhase_of_eq hp nofun _).trans (atByte_of_lt hv _))

theorem exec_of_unconf {i : Instr} {s : State} (hf : s.fault = false) (hp : s.phase = .unconf)
    (hi : ∀ a b, i ≠ .init a b) : exec i s = .next (raiseFault .notConfigured s) := by
  cases i with
  | init a b => exact absurd rfl (hi a b)
  | absorb d => exact (unlessFaulted_of_not hf _).trans (inPhase_of_unconf hp _ _)
  | final => exact (unlessFaulted_of_not hf _).trans (inPhase_of_unconf hp _ _)
  | squeeze => exact (unlessFaulted_of_not hf _).trans (inPhase_of_unconf hp _ _)

/-- The commands of the other phase (R72). -/
def OutOfPhase : Instr → Phase → Prop
  | .absorb _, .squeeze => True
  | .final, .squeeze => True
  | .squeeze, .absorb => True
  | _, _ => False

theorem exec_of_outOfPhase {i : Instr} {s : State} (hf : s.fault = false)
    (hw : OutOfPhase i s.phase) : exec i s = .next (raiseFault .wrongPhase s) := by
  cases i <;> cases hp : s.phase <;> simp [OutOfPhase, hp] at hw
  · exact (unlessFaulted_of_not hf _).trans (inPhase_of_other (by simp [hp]) (by simp [hp]) _)
  · exact (unlessFaulted_of_not hf _).trans (inPhase_of_other (by simp [hp]) (by simp [hp]) _)
  · exact (unlessFaulted_of_not hf _).trans (inPhase_of_other (by simp [hp]) (by simp [hp]) _)

/-- A faulted engine performs no word (R75). -/
theorem performWord_of_fault {w : Word} {s : State} (hf : s.fault = true) :
    performWord w s = .next (ignoreCommand s) := by
  unfold performWord
  split
  · exact unlessFaulted_of_fault hf _
  · exact exec_of_fault hf _

/-- Fault entry in the terms of the statements. -/
theorem takesFault_raiseFault (c : Cause) (s : State) :
    TakesFault c s (.next (raiseFault c s)) :=
  ⟨_, rfl, rfl, rfl, rfl, rfl, rfl, rfl, rfl, rfl, rfl⟩

/-! ### What no command changes -/

/-- A command turned away keeps every register and adds one response. -/
theorem Turned.frame {s t : State} (h : Turned s t) :
    t.lanes = s.lanes ∧ t.rate = s.rate ∧ t.suffix = s.suffix ∧ t.pos = s.pos ∧
      t.phase = s.phase ∧ t.channel = s.channel ∧
      t.responses = s.responses ++ [⟨0, t.status⟩] ∧ t.fault = true ∧
      (t.fault = s.fault → t.cause = s.cause) := by
  obtain ⟨hf, rfl⟩ | ⟨hf, c, -, rfl⟩ := h
  · simp [hf]
  · simp [hf]

/-- A command is turned away, or FAULT = 0 before and after it; CAUSE and the channel stay. -/
theorem exec_next {i : Instr} {s t : State} (h : exec i s = .next t) :
    Turned s t ∨
      (s.fault = false ∧ t.fault = false ∧ t.cause = s.cause ∧ t.channel = s.channel) := by
  cases i with
  | init a b =>
    obtain h | ⟨hf, _, _, rfl⟩ := execInit_cases h
    · exact .inl h
    · exact .inr ⟨hf, hf, rfl, rfl⟩
  | absorb d =>
    obtain h | ⟨hf, _, _, rfl⟩ := execAbsorb_cases h
    · exact .inl h
    · right; simp [takeByte, hf]
  | final =>
    obtain h | ⟨hf, _, _, _, rfl⟩ := execFinal_cases h
    · exact .inl h
    · exact .inr ⟨hf, hf, rfl, rfl⟩
  | squeeze =>
    obtain h | ⟨hf, _, _, rfl⟩ := execSqueeze_cases h
    · exact .inl h
    · right; simp [giveByte, hf]

theorem exec_channel {i : Instr} {s t : State} (h : exec i s = .next t) :
    t.channel = s.channel := by
  obtain h | h := exec_next h
  · exact h.frame.2.2.2.2.2.1
  · exact h.2.2.2

/-! ### What a command does not look at -/

/-- `s` with other lanes. -/
def withLanes (A : Lanes) (s : State) : State := { s with lanes := A }

theorem respond_withLanes (d : Byte) (A : Lanes) (s : State) :
    respond d (withLanes A s) = withLanes A (respond d s) := rfl

theorem closeHash_withLanes (i j : Fin 200) (A : Lanes) (s : State) :
    closeHash i j (withLanes A s) =
      withLanes (finalLanes i j (withLanes A s)) (closeHash i j s) := rfl

theorem takeByte_withLanes (d : Byte) (i : Fin 200) (A : Lanes) (s : State) :
    takeByte d i (withLanes A s) = withLanes (xorByte A i d) (takeByte d i s) := rfl

theorem renewBlock_withLanes (A : Lanes) (s : State) :
    renewBlock (withLanes A s) =
      withLanes (renewBlock (withLanes A s)).lanes (renewBlock s) := by
  by_cases e : s.pos = s.rate
  · rw [renewBlock_of_eq e, renewBlock_of_eq (s := withLanes A s) e]; rfl
  · rw [renewBlock_of_ne e, renewBlock_of_ne (s := withLanes A s) e]; rfl

/-- `s` with other things waiting, and after other responses. -/
def reframe (c : List Event) (past : List Response) (s : State) : State :=
  { s with channel := c, responses := past ++ s.responses }

theorem respond_reframe (d : Byte) (c : List Event) (past : List Response) (s : State) :
    respond d (reframe c past s) = reframe c past (respond d s) := by
  obtain ⟨lanes, rate, suffix, pos, phase, fault, cause, ch, rs⟩ := s
  simp only [respond, reframe, List.append_assoc]
  rfl

theorem raiseFault_reframe (e : Cause) (c : List Event) (past : List Response) (s : State) :
    raiseFault e (reframe c past s) = reframe c past (raiseFault e s) :=
  respond_reframe 0 c past { s with fault := true, cause := e }

theorem renewBlock_reframe (c : List Event) (past : List Response) (s : State) :
    renewBlock (reframe c past s) = reframe c past (renewBlock s) := by
  by_cases e : s.pos = s.rate
  · rw [renewBlock_of_eq e, renewBlock_of_eq (s := reframe c past s) e]; rfl
  · rw [renewBlock_of_ne e, renewBlock_of_ne (s := reframe c past s) e]

/-- An answer, reframed. -/
def reframed (c : List Event) (past : List Response) : Result → Result
  | .next t => .next (reframe c past t)
  | .fault r => .fault r
  | .refused r => .refused r

theorem unlessFaulted_reframe (c : List Event) (past : List Response) {s : State} {k k' : Result}
    (h : k' = reframed c past k) :
    unlessFaulted (reframe c past s) k' = reframed c past (unlessFaulted s k) := by
  subst h
  cases hf : s.fault
  · rw [unlessFaulted_of_not hf, unlessFaulted_of_not (s := reframe c past s) hf]
  · rw [unlessFaulted_of_fault hf, unlessFaulted_of_fault (s := reframe c past s) hf]
    exact congrArg Host.Outcome.next (respond_reframe 0 c past s)

theorem inPhase_reframe (c : List Event) (past : List Response) {p : Phase} {s : State}
    {k k' : Result} (h : k' = reframed c past k) :
    inPhase p (reframe c past s) k' = reframed c past (inPhase p s k) := by
  subst h
  by_cases hu : s.phase = .unconf
  · rw [inPhase_of_unconf hu, inPhase_of_unconf (s := reframe c past s) hu]
    exact congrArg Host.Outcome.next (raiseFault_reframe _ c past s)
  · by_cases hp : s.phase = p
    · rw [inPhase_of_eq hp (hp ▸ hu), inPhase_of_eq (s := reframe c past s) hp (hp ▸ hu)]
    · rw [inPhase_of_other hu hp, inPhase_of_other (s := reframe c past s) hu hp]
      exact congrArg Host.Outcome.next (raiseFault_reframe _ c past s)

theorem atByte_reframe (c : List Event) (past : List Response) {p : Byte}
    {k k' : Fin 200 → Result} (h : ∀ i, k' i = reframed c past (k i)) :
    atByte p k' = reframed c past (atByte p k) := by
  by_cases hp : p.toNat < 200
  · rw [atByte_of_lt hp, atByte_of_lt hp, h]
  · rw [atByte_of_ge (Nat.le_of_not_lt hp), atByte_of_ge (Nat.le_of_not_lt hp)]; rfl

/-- A command's answer depends neither on the channel nor on the responses before it. -/
theorem exec_reframe (i : Instr) (c : List Event) (past : List Response) (s : State) :
    exec i (reframe c past s) = reframed c past (exec i s) := by
  cases i with
  | init a b =>
    refine unlessFaulted_reframe c past ?_
    cases rateLegal a
    · exact congrArg Host.Outcome.next (raiseFault_reframe _ c past s)
    · exact congrArg Host.Outcome.next (respond_reframe 0 c past (startHash a b s))
  | absorb d =>
    refine unlessFaulted_reframe c past (inPhase_reframe c past (atByte_reframe c past fun i => ?_))
    show Host.Outcome.next (respond 0 (renewBlock (reframe c past (takeByte d i s)))) = _
    rw [renewBlock_reframe, respond_reframe]; rfl
  | final =>
    refine unlessFaulted_reframe c past (inPhase_reframe c past
      (atByte_reframe c past fun i => atByte_reframe c past fun last => ?_))
    exact congrArg Host.Outcome.next (respond_reframe 0 c past (closeHash i last s))
  | squeeze =>
    refine unlessFaulted_reframe c past (inPhase_reframe c past ?_)
    show atByte (renewBlock (reframe c past s)).pos _ = _
    rw [renewBlock_reframe]
    refine atByte_reframe c past fun i => ?_
    exact congrArg Host.Outcome.next
      (respond_reframe (byteAt (renewBlock s).lanes i) c past (giveByte s))

end Sys2Proof.Machine
end

