-- ==== Sys2Proof/Laws/Encoding.lean ====
section
/-! SUPPORT. The fields of a command word (30_encoding.md R38): what packing puts into each, and that
the five fields are the whole word. -/

namespace Sys2Proof

theorem cmdOp_packCommand (op : BitVec 4) (a b : Byte) : cmdOp (packCommand op a b) = op := by
  refine BitVec.eq_of_getLsbD_eq fun k hk => ?_
  interval_cases k <;> simp [cmdOp, packCommand]

theorem cmdZ1_packCommand (op : BitVec 4) (a b : Byte) : cmdZ1 (packCommand op a b) = 0 := by
  refine BitVec.eq_of_getLsbD_eq fun k hk => ?_
  interval_cases k <;> simp [cmdZ1, packCommand]

theorem cmdA_packCommand (op : BitVec 4) (a b : Byte) : cmdA (packCommand op a b) = a := by
  refine BitVec.eq_of_getLsbD_eq fun k hk => ?_
  interval_cases k <;> simp [cmdA, packCommand]

theorem cmdB_packCommand (op : BitVec 4) (a b : Byte) : cmdB (packCommand op a b) = b := by
  refine BitVec.eq_of_getLsbD_eq fun k hk => ?_
  interval_cases k <;> simp [cmdB, packCommand]

theorem cmdZ2_packCommand (op : BitVec 4) (a b : Byte) : cmdZ2 (packCommand op a b) = 0 := by
  refine BitVec.eq_of_getLsbD_eq fun k hk => ?_
  interval_cases k <;> simp [cmdZ2, packCommand]

/-- The five fields are the whole word (R38). -/
theorem word_ext {w v : Word} (h0 : cmdOp w = cmdOp v) (h1 : cmdZ1 w = cmdZ1 v)
    (h2 : cmdA w = cmdA v) (h3 : cmdB w = cmdB v) (h4 : cmdZ2 w = cmdZ2 v) : w = v := by
  refine BitVec.eq_of_getLsbD_eq fun k hk => ?_
  have f0 (j : Nat) := congrArg (BitVec.getLsbD · j) h0
  have f1 (j : Nat) := congrArg (BitVec.getLsbD · j) h1
  have f2 (j : Nat) := congrArg (BitVec.getLsbD · j) h2
  have f3 (j : Nat) := congrArg (BitVec.getLsbD · j) h3
  have f4 (j : Nat) := congrArg (BitVec.getLsbD · j) h4
  simp only [cmdOp, cmdZ1, cmdA, cmdB, cmdZ2, BitVec.getLsbD_extractLsb'] at f0 f1 f2 f3 f4
  by_cases k0 : k < 4
  · simpa [k0] using f0 k
  by_cases k1 : k < 8
  · simpa [show k - 4 < 4 by omega, show 4 + (k - 4) = k by omega] using f1 (k - 4)
  by_cases k2 : k < 16
  · simpa [show k - 8 < 8 by omega, show 8 + (k - 8) = k by omega] using f2 (k - 8)
  by_cases k3 : k < 24
  · simpa [show k - 16 < 8 by omega, show 16 + (k - 16) = k by omega] using f3 (k - 16)
  · simpa [show k - 24 < 8 by omega, show 24 + (k - 24) = k by omega] using f4 (k - 24)

/-- A word with its reserved fields zero is what its other fields pack to. -/
theorem packCommand_fields {w : Word} (h1 : cmdZ1 w = 0) (h2 : cmdZ2 w = 0) :
    packCommand (cmdOp w) (cmdA w) (cmdB w) = w :=
  word_ext (cmdOp_packCommand _ _ _) ((cmdZ1_packCommand _ _ _).trans h1.symm)
    (cmdA_packCommand _ _ _) (cmdB_packCommand _ _ _) ((cmdZ2_packCommand _ _ _).trans h2.symm)

/-- A field of a masked word is the masked field. -/
theorem extractLsb'_mask (s n : Nat) (w m : Word) :
    (w &&& m).extractLsb' s n = w.extractLsb' s n &&& m.extractLsb' s n := by
  ext k
  simp

/-- Matching a masked word is matching each field (R40). -/
theorem mask_eq_iff (w m v : Word) :
    w &&& m = v ↔ cmdOp w &&& cmdOp m = cmdOp v ∧ cmdZ1 w &&& cmdZ1 m = cmdZ1 v ∧
      cmdA w &&& cmdA m = cmdA v ∧ cmdB w &&& cmdB m = cmdB v ∧ cmdZ2 w &&& cmdZ2 m = cmdZ2 v := by
  constructor
  · rintro rfl
    simp [cmdOp, cmdZ1, cmdA, cmdB, cmdZ2, extractLsb'_mask]
  · rintro ⟨h0, h1, h2, h3, h4⟩
    apply word_ext <;> simpa [cmdOp, cmdZ1, cmdA, cmdB, cmdZ2, extractLsb'_mask]

end Sys2Proof
end

