-- ==== Sys2Proof/Laws/PerInstr.lean ====
section
/-! SUPPORT. Statements made command by command: the word of each command is covered by its own row
of the opcode map (30_encoding.md R40). -/

namespace Sys2Proof.Laws.EncodedRow

/-- The command is well-formed, and a row of the opcode map with its mnemonic covers its word. -/
def Statement (i : Instr) : Prop :=
  i.wellFormed = true ∧
    ∃ r : OpcodeRow, r ∈ opcodeTable ∧ r.mnemonic = i.mnemonic ∧ r.covers (encode i) = true

/-- The words of one operation code and two operands match the row that masks the operands out. -/
theorem covers_of_fields {r : OpcodeRow} {op : BitVec 4} {a b : Byte}
    (h : op &&& cmdOp r.mask = cmdOp r.pattern ∧ 0 &&& cmdZ1 r.mask = cmdZ1 r.pattern ∧
      a &&& cmdA r.mask = cmdA r.pattern ∧ b &&& cmdB r.mask = cmdB r.pattern ∧
      0 &&& cmdZ2 r.mask = cmdZ2 r.pattern) : r.covers (packCommand op a b) = true := by
  rw [OpcodeRow.covers, beq_iff_eq, mask_eq_iff]
  simpa only [cmdOp_packCommand, cmdZ1_packCommand, cmdA_packCommand, cmdB_packCommand,
    cmdZ2_packCommand] using h

/-- A masked-out operand is 0. -/
theorem masked_out (a m v : Byte) (hm : m = 0) (hv : v = 0) : a &&& m = v := by
  subst hm hv
  exact BitVec.and_zero

theorem init (rate suffix : Byte) : Statement (.init rate suffix) :=
  ⟨rfl, ⟨"INIT", 0x00000001, 0xFF0000FF⟩, by decide, rfl,
    covers_of_fields ⟨by decide, by decide, masked_out _ _ _ (by decide) (by decide),
      masked_out _ _ _ (by decide) (by decide), by decide⟩⟩

theorem absorb (data : Byte) : Statement (.absorb data) :=
  ⟨rfl, ⟨"ABSORB", 0x00000002, 0xFFFF00FF⟩, by decide, rfl,
    covers_of_fields ⟨by decide, by decide, masked_out _ _ _ (by decide) (by decide),
      by decide, by decide⟩⟩

theorem final : Statement .final :=
  ⟨rfl, ⟨"FINAL", 0x00000003, 0xFFFFFFFF⟩, by decide, rfl, by decide⟩

theorem squeeze : Statement .squeeze :=
  ⟨rfl, ⟨"SQUEEZE", 0x00000004, 0xFFFFFFFF⟩, by decide, rfl, by decide⟩

end Sys2Proof.Laws.EncodedRow
end

