-- ==== Sys2Proof/Laws/Permutation.lean ====
section
/-! SUPPORT. What the walk of rho+pi and the steps of iota leave, for any number of their steps
(40_permutation.md R50, R55). -/

namespace Sys2Proof.Machine

/-- The lane the walk stands on before step `t` (R50). -/
def walkPlace : Nat → Nat × Nat
  | 0 => (1, 0)
  | t + 1 => ((walkPlace t).2, (2 * (walkPlace t).1 + 3 * (walkPlace t).2) % 5)

theorem walkPlace_lt (t : Nat) : (walkPlace t).1 < 5 ∧ (walkPlace t).2 < 5 := by
  induction t with
  | zero => decide
  | succ t ih => exact ⟨ih.2, Nat.mod_lt _ (by decide)⟩

/-- The walk arrives on each lane once. -/
theorem walkPlace_ne : ∀ t, t < 24 → ∀ s, s < t → walkPlace (s + 1) ≠ walkPlace (t + 1) := by
  decide

/-- The walk after `t` steps: where it stands, what it carries, which lanes it has written and what
with, and that the others are as before. -/
theorem walk_invariant (A : Lanes) (t : Nat) (ht : t ≤ 24) :
    let w := (List.range t).foldl walkStep (walkStart A)
    w.x = (walkPlace t).1 ∧ w.y = (walkPlace t).2 ∧ w.acc = t * (t + 1) / 2 ∧
    w.current = laneAt A (walkPlace t).1 (walkPlace t).2 ∧
    (∀ s, s < t → laneAt w.lanes (walkPlace (s + 1)).1 (walkPlace (s + 1)).2 =
      rotl64 (laneAt A (walkPlace s).1 (walkPlace s).2) ((s + 1) * (s + 2) / 2)) ∧
    (∀ u v, u < 5 → v < 5 → (∀ s, s < t → walkPlace (s + 1) ≠ (u, v)) →
      laneAt w.lanes u v = laneAt A u v) := by
  induction t with
  | zero => simp [walkStart, walkPlace]
  | succ t ih =>
    obtain ⟨h1, h2, h3, h4, h5, h6⟩ := ih (by omega)
    simp only [List.range_succ, List.foldl_append, List.foldl_cons, List.foldl_nil]
    generalize (List.range t).foldl walkStep (walkStart A) = w at *
    have hP1 := walkPlace_lt (t + 1)
    have hacc : w.acc + (t + 1) = (t + 1) * (t + 2) / 2 := by
      have : (t + 1) * (t + 2) = t * (t + 1) + 2 * (t + 1) := by ring
      omega
    have e1 : (walkPlace (t + 1)).1 = w.y := by simp [walkPlace, h2]
    have e2 : (walkPlace (t + 1)).2 = (2 * w.x + 3 * w.y) % 5 := by simp [walkPlace, h1, h2]
    refine ⟨e1.symm, e2.symm, hacc, ?_, ?_, ?_⟩
    · simp only [walkStep]
      rw [← e2, ← e1]
      exact h6 _ _ hP1.1 hP1.2 fun s hs => walkPlace_ne t (by omega) s hs
    · intro s hs
      simp only [walkStep]
      rw [← e2, ← e1, laneAt_writeLane _ _ hP1.1 hP1.2 (walkPlace_lt _).1 (walkPlace_lt _).2,
        hacc, h4]
      by_cases hst : s = t
      · subst hst; simp
      · have := walkPlace_ne t (by omega) s (by omega)
        rw [if_neg fun e => this e.symm]
        exact h5 s (by omega)
    · intro u v hu hv hn
      simp only [walkStep]
      rw [← e2, ← e1, laneAt_writeLane _ _ hP1.1 hP1.2 hu hv, if_neg (hn t (by omega))]
      exact h6 u v hu hv fun s hs => hn s (by omega)

/-- One step of iota as an XOR of a bit, or of nothing. -/
theorem iotaStep_eq (A : Lanes) (L : Byte) (j : Nat) :
    iotaStep (A, L) j =
      (writeLane A 0 0
        (laneAt A 0 0 ^^^ (if lfsrOut L then (1 : Lane) <<< (2 ^ j - 1) else 0)), lfsrNext L) := by
  unfold iotaStep
  cases h : lfsrOut L
  · simp [writeLane_laneAt A (by decide : 0 < 5) (by decide : 0 < 5)]
  · simp

/-- The bits `n` steps of iota flip, from the LFSR value `L` on. -/
def iotaMask (L : Byte) : Nat → Lane
  | 0 => 0
  | j + 1 =>
    iotaMask L j ^^^ (if lfsrOut (lfsrNext^[j] L) then (1 : Lane) <<< (2 ^ j - 1) else 0)

/-- `n` steps of iota XOR their mask into A[0,0] and step the LFSR `n` times. -/
theorem iota_steps (A : Lanes) (L : Byte) (n : Nat) :
    (List.range n).foldl iotaStep (A, L) =
      (writeLane A 0 0 (laneAt A 0 0 ^^^ iotaMask L n), lfsrNext^[n] L) := by
  induction n with
  | zero => simp [iotaMask, writeLane_laneAt A (by decide : 0 < 5) (by decide : 0 < 5)]
  | succ n ih =>
    rw [List.range_succ, List.foldl_append, ih]
    simp only [List.foldl_cons, List.foldl_nil, iotaStep_eq,
      writeLane_writeLane _ _ _ (by decide : 0 < 5) (by decide : 0 < 5), laneAt_writeLane_same,
      Function.iterate_succ_apply', iotaMask, BitVec.xor_assoc]

end Sys2Proof.Machine
end

