-- ==== Sys2Proof/Laws/Run.lean ====
section
/-! SUPPORT. Runs: one step of the machine's run, and sequences of commands. -/

namespace Sys2Proof.Machine

/-- A run of one step more, over any core. -/
theorem run_of_next (M : Host.Core) (k : Nat) {s t : M.State} (h : M.step s = .next t) :
    M.run (k + 1) s = M.run k t := by
  rw [Host.Core.run, h]

theorem run_of_fault (M : Host.Core) (k : Nat) {s : M.State} {r : M.Fault}
    (h : M.step s = .fault r) : M.run (k + 1) s = .fault r := by
  rw [Host.Core.run, h]

theorem run_of_refused (M : Host.Core) (k : Nat) {s : M.State} {r : M.Refusal}
    (h : M.step s = .refused r) : M.run (k + 1) s = .refused r := by
  rw [Host.Core.run, h]

/-- A run of this machine, one step more. -/
theorem run_succ (k : Nat) (s : State) :
    Host.Core.run Sys2Proof.core (k + 1) s =
      match step s with
      | .next t => Host.Core.run Sys2Proof.core k t
      | .fault r => .fault r
      | .refused r => .refused r := by
  cases h : step s
  · exact run_of_next Sys2Proof.core k h
  · exact run_of_fault Sys2Proof.core k h
  · exact run_of_refused Sys2Proof.core k h

theorem performAll_cons (i : Instr) (is : List Instr) (s : State) :
    performAll (i :: is) s =
      match exec i s with
      | .next t => performAll is t
      | .fault r => .fault r
      | .refused r => .refused r := rfl

/-- Two sequences, one after the other. -/
theorem performAll_append {is js : List Instr} {s u : State}
    (h : performAll (is ++ js) s = .next u) :
    ∃ t, performAll is s = .next t ∧ performAll js t = .next u := by
  induction is generalizing s with
  | nil => exact ⟨s, rfl, h⟩
  | cons i is ih =>
    rw [List.cons_append, performAll_cons] at h
    rw [performAll_cons]
    split at h
    next t ht => exact ih h
    all_goals cases h

theorem performAll_append_of {is js : List Instr} {s t : State} (h : performAll is s = .next t) :
    performAll (is ++ js) s = performAll js t ∧
      totalWork (is ++ js) s = totalWork is s + totalWork js t := by
  induction is generalizing s with
  | nil => cases h; simp [totalWork]
  | cons i is ih =>
    rw [performAll_cons] at h
    split at h
    next u hu =>
      have := ih h
      simp only [List.cons_append, performAll, totalWork, hu]
      exact ⟨this.1, by rw [this.2]; omega⟩
    all_goals cases h

theorem performAll_channel {is : List Instr} {s t : State} (h : performAll is s = .next t) :
    t.channel = s.channel := by
  induction is generalizing s with
  | nil => cases h; rfl
  | cons i is ih =>
    rw [performAll_cons] at h
    split at h
    next u hu => rw [ih h, exec_channel hu]
    all_goals cases h

/-- A sequence's answer depends neither on the channel nor on the responses before it. -/
theorem performAll_reframe (is : List Instr) (c : List Event) (past : List Response) (s : State) :
    performAll is (reframe c past s) = reframed c past (performAll is s) := by
  induction is generalizing s with
  | nil => rfl
  | cons i is ih =>
    rw [performAll_cons, performAll_cons, exec_reframe]
    cases exec i s with
    | next t => exact ih t
    | fault r => rfl
    | refused r => rfl

end Sys2Proof.Machine
end

