-- ==== Sys2Proof/Tests/Slice0.lean ====
section
/-! SUPPORT. Tests: what the checks refuse, words written out from the spec's encodings, single steps
with the results 95_test_vectors.md gives, and for every statement with hypotheses a witness that
meets them. -/

namespace Sys2Proof.Machine

/-! ### The checks of a line refuse ill-formed lines (30_encoding.md R43, R44, R47) -/

theorem test_refuses_wide_rate : (AsmLine.init 256 0x06).wellFormed = false := by decide
theorem test_refuses_wide_suffix : (AsmLine.init 136 256).wellFormed = false := by decide
theorem test_refuses_wide_data : (AsmLine.absorb 256).wellFormed = false := by decide
theorem test_refuses_non_ascii : (AsmLine.absorbs (.text ['a', 'é'])).wellFormed = false := by decide
theorem test_refuses_quote : (AsmLine.absorbs (.text ['a', quoteChar])).wellFormed = false := by decide
theorem test_refuses_odd_hex : (AsmLine.absorbs (.hex ['6', '1', '6'])).wellFormed = false := by decide
theorem test_refuses_non_hex : (AsmLine.absorbs (.hex ['6', 'g'])).wellFormed = false := by decide
theorem test_refuses_hash_of_shake : (AsmLine.hash .shake128 (.text [])).wellFormed = false := by decide
theorem test_refuses_hash_of_ill_formed_bytes :
    (AsmLine.hash .sha3_256 (.hex ['6'])).wellFormed = false := by decide
theorem test_refuses_xof_of_digest : (AsmLine.xof .sha3_256 (.text []) 32).wellFormed = false := by decide
theorem test_refuses_xof_of_ill_formed_bytes :
    (AsmLine.xof .shake128 (.hex ['6']) 8).wellFormed = false := by decide
/-- The rate of INIT is not the assembler's to check (R43). -/
theorem test_accepts_rate_out_of_range :
    (AsmLine.init 0 0x06).wellFormed = true ∧ (AsmLine.init 201 0x06).wellFormed = true ∧
      (Instr.init 201 0x06).wellFormed = true := by decide

/-! ### Words, bit by bit from the patterns of 30_encoding.md R40 (OP in the last four bits) -/

theorem test_decode_init :
    decode 0b00000000_00000110_10001000_0000_0001 = .legal (.init 136 0x06) := by decide
theorem test_decode_absorb :
    decode 0b00000000_00000000_01100001_0000_0010 = .legal (.absorb 0x61) := by decide
theorem test_decode_final :
    decode 0b00000000_00000000_00000000_0000_0011 = .legal .final := by decide
theorem test_decode_squeeze :
    decode 0b00000000_00000000_00000000_0000_0100 = .legal .squeeze := by decide
/-- 95_test_vectors.md section 4.2, F1 to F8: one word for each of R41's kinds. -/
theorem test_decode_illegal :
    decode 0x00000000 = .illegal .unknownCode ∧ decode 0x00000005 = .illegal .unknownCode ∧
    decode 0x0000000F = .illegal .unknownCode ∧ decode 0x00016102 = .illegal .unusedOperand ∧
    decode 0x00000103 = .illegal .unusedOperand ∧ decode 0x00010004 = .illegal .unusedOperand ∧
    decode 0x00000012 = .illegal .reservedField ∧ decode 0x01000002 = .illegal .reservedField := by
  decide
/-- The words of 95_test_vectors.md section 4.1. -/
theorem test_encode :
    encode (.init 136 0x06) = 0x00068801 ∧ encode (.init 4 0x86) = 0x00860401 ∧
    encode (.init 200 0x06) = 0x0006C801 ∧ encode (.absorb 0xAA) = 0x0000AA02 ∧
    encode .final = 0x00000003 ∧ encode .squeeze = 0x00000004 := by decide
/-- The four rows of spec/opcode_table.json, and a word whose bits above 32 are not zero. -/
theorem test_decodeTableWord :
    decodeTableWord 32 0x00000001 = some (.init 0 0) ∧
    decodeTableWord 32 0x00000002 = some (.absorb 0) ∧
    decodeTableWord 32 0x00000003 = some .final ∧
    decodeTableWord 32 0x00000004 = some .squeeze ∧
    decodeTableWord 32 0x00000005 = none ∧ decodeTableWord 40 0x100000004 = none := by decide

/-! ### The permutation: 95_test_vectors.md section 2 -/

/-- The state with one lane set. -/
def oneLane (x y : Nat) (v : Lane) : Lanes := writeLane Lanes.zero x y v

/-- A state from its non-zero lanes. -/
def sparse (ls : List (Nat × Nat × Lane)) : Lanes :=
  ls.foldl (fun A l => writeLane A l.1 l.2.1 l.2.2) Lanes.zero

theorem test_rotl64 :
    rotl64 0x8000000000000001 1 = 0x0000000000000003 ∧
    rotl64 0x0123456789ABCDEF 0 = 0x0123456789ABCDEF ∧
    rotl64 0x0123456789ABCDEF 64 = 0x0123456789ABCDEF ∧
    rotl64 0x0123456789ABCDEF 4 = 0x123456789ABCDEF0 ∧
    rotl64 0x0000000000000001 63 = 0x8000000000000000 ∧
    rotl64 0x0000000000000001 300 = 0x0000100000000000 := by decide
theorem test_theta :
    theta (oneLane 0 0 1) =
      sparse [(0, 0, 1), (1, 0, 1), (1, 1, 1), (1, 2, 1), (1, 3, 1), (1, 4, 1),
        (4, 0, 2), (4, 1, 2), (4, 2, 2), (4, 3, 2), (4, 4, 2)] := by decide +kernel
theorem test_rhoPi :
    rhoPi (oneLane 1 0 1) = oneLane 0 2 2 ∧
    rhoPi (oneLane 1 1 0x8000000000000001) = oneLane 1 0 0x0000180000000000 ∧
    rhoPi (oneLane 0 0 1) = oneLane 0 0 1 := by decide +kernel
theorem test_chi :
    chi (oneLane 1 0 0xFFFFFFFFFFFFFFFF) =
      sparse [(1, 0, 0xFFFFFFFFFFFFFFFF), (4, 0, 0xFFFFFFFFFFFFFFFF)] ∧
    chi (oneLane 2 0 0xFFFFFFFFFFFFFFFF) =
      sparse [(0, 0, 0xFFFFFFFFFFFFFFFF), (2, 0, 0xFFFFFFFFFFFFFFFF)] := by decide +kernel
theorem test_lfsr :
    (lfsrOut 0x80, lfsrNext 0x80) = (false, 0x71) ∧ (lfsrOut 0x01, lfsrNext 0x01) = (true, 0x02) ∧
    (lfsrOut 0x8E, lfsrNext 0x8E) = (false, 0x6D) := by decide
/-- Iota of round 3, whose LFSR value is the one after 21 steps. -/
theorem test_iota :
    (iota Lanes.zero (lfsrNext^[21] 0x01)).1 = oneLane 0 0 0x8000000080008000 := by decide +kernel
theorem test_three_transforms :
    chi (rhoPi (theta (oneLane 0 0 1))) =
      sparse [(0, 0, 0x1), (0, 2, 0x2), (0, 3, 0x10000400), (0, 4, 0x0000010000000000),
        (1, 0, 0x0000100000000000), (1, 1, 0x0000200000200000), (1, 2, 0x200), (2, 0, 0x8000),
        (2, 3, 0x400), (2, 4, 0x0000010000000004), (3, 0, 0x1), (3, 1, 0x0000200000000000),
        (3, 2, 0x202), (3, 3, 0x10000000), (4, 0, 0x0000100000008000), (4, 1, 0x200000),
        (4, 4, 0x4)] := by decide +kernel
/-- The state of 200 bytes, written as rows of hexadecimal digits, S[0] first. -/
def ofHexRows (rows : List String) : Lanes :=
  xorBlock (hexBytes (rows.flatMap String.toList)) Lanes.zero

/-- Section 2.6, the state as bytes. -/
theorem test_keccakF_zero :
    keccakF Lanes.zero = ofHexRows
      ["e7dde140798f25f18a47c033f9ccd584eea95aa61e2698d54d49806f304715bd57d05362054e288b",
       "d46f8e7f2da497ffc44746a4a0e5fe90762e19d60cda5b8c9c05191bf7a630ad64fc8fd0b75a9330",
       "35d617233fa95aeb0321710d26e6a6a95f55cfdb167ca58126c84703cd31b8439f56a5111a2ff201",
       "61aed9215a63e505f270c98cf2febe641166c47b95703661cb0ed04f555a7cb8c832cf1c8ae83e8c",
       "14263aae22790c94e409c5a224f94118c26504e72635f5163ba1307fe944f67549a2ec5c7bfff1ea"] := by
  decide +kernel

/-! ### Steps -/

/-- An engine that absorbs, with S = 0. -/
def absorbing (rate suffix pos : Byte) : State :=
  { State.reset with rate := rate, suffix := suffix, pos := pos, phase := .absorb }

/-- An engine that squeezes. -/
def squeezing (rate suffix pos : Byte) (A : Lanes) : State :=
  { State.reset with rate := rate, suffix := suffix, pos := pos, phase := .squeeze, lanes := A }

/-- An engine that has faulted out of phase. -/
def faulted : State := raiseFault .wrongPhase (squeezing 136 0x06 0 Lanes.zero)

/-- The registers a result shows, as STATUS, and the last response. -/
def shown : Result → Option (Word × Option Response)
  | .next t => some (t.status, t.responses.getLast?)
  | .fault _ => none
  | .refused _ => none

/-- The lanes a result leaves. -/
def leaves : Result → Option Lanes
  | .next t => some t.lanes
  | .fault _ => none
  | .refused _ => none

/-- 95_test_vectors.md T6, F10. -/
theorem test_init :
    shown (exec (.init 136 0x06) State.reset) = some (0x06880001, some ⟨0x00, 0x06880001⟩) ∧
    shown (exec (.init 200 0x06) State.reset) = some (0x06C80001, some ⟨0x00, 0x06C80001⟩) := by
  decide
/-- F9, F11, F12. -/
theorem test_init_illegalRate :
    shown (exec (.init 0 0x06) State.reset) = some (0x00000024, some ⟨0x00, 0x00000024⟩) ∧
    shown (exec (.init 201 0x06) State.reset) = some (0x00000024, some ⟨0x00, 0x00000024⟩) ∧
    shown (exec (.init 255 0xFF) State.reset) = some (0x00000024, some ⟨0x00, 0x00000024⟩) := by
  decide
/-- T6: the third byte of "abc", and S[0..7] after it. -/
theorem test_absorb :
    shown (exec (.absorb 0x63) (absorbing 136 0x06 2)) =
      some (0x06880301, some ⟨0x00, 0x06880301⟩) ∧
    leaves (exec (.absorb 0x63) { absorbing 136 0x06 2 with lanes := oneLane 0 0 0x6261 }) =
      some (oneLane 0 0 0x636261) := by decide
/-- T3: absorbing zero bytes is not a no-op; the second fills the block, and S is KeccakF of 0. -/
theorem test_absorb_fills :
    shown (exec (.absorb 0x00) (absorbing 2 0x06 1)) =
      some (0x06020001, some ⟨0x00, 0x06020001⟩) ∧
    leaves (exec (.absorb 0x00) (absorbing 2 0x06 1)) = some (keccakF Lanes.zero) := by
  refine ⟨by decide, ?_⟩
  rw [execAbsorb_of rfl rfl 1 rfl, renewBlock_of_eq rfl]
  exact congrArg (fun A => some (keccakF A)) (xorByte_zero Lanes.zero 1)
/-- P1: FINAL after "abc" leaves the state whose first 32 bytes are SHA3-256("abc"). -/
theorem test_final :
    (shown (exec .final { absorbing 136 0x06 3 with lanes := oneLane 0 0 0x636261 }),
      leaves (exec .final { absorbing 136 0x06 3 with lanes := oneLane 0 0 0x636261 })) =
    (some (0x06880002, some ⟨0x00, 0x06880002⟩), some <| ofHexRows
      ["3a985da74fe225b2045c172d6bd390bd855f086e3e9d525b46bfe24511431532d136f622fb9210f8",
       "273e60d6aac89720f7b13f6261c5f2319cdf04f2f374df8facc486b18d835e9fa2ba11bc041c0aa8",
       "42f74ea5810513bfbff8a9cdcefc92306208f04a2a8b8b1a05a70cd990ccc4604e1e85543279241f",
       "ef2146a8dc391263bde15f3966783f4b8a7dc6ff1bf9be30c906ddd63d5172d285b5ec0a60afa325",
       "c8be38b95c3ec55fc13cbcacdc22fc02c36c4b8c929480667d1a16ae2951c2d54110e9969e9cd8b5"]) := by
  decide +kernel
/-- 95_test_vectors.md section 3.3: the pre-permute runs for suffix bit 7 at POS = R − 1 only. -/
theorem test_prePermutes :
    prePermutes (absorbing 136 0x86 135) = true ∧ prePermutes (absorbing 136 0x86 134) = false ∧
    prePermutes (absorbing 136 0x06 135) = false ∧ prePermutes (absorbing 1 0x86 0) = true := by
  decide
/-- T6: the first SQUEEZE after the FINAL of "abc" returns 0x3A. -/
theorem test_squeeze :
    shown (exec .squeeze (squeezing 136 0x06 0 (oneLane 0 0 0xB225E24FA75D983A))) =
      some (0x06880102, some ⟨0x3A, 0x06880102⟩) := by decide
/-- POS = RATE: KeccakF first, then S[0]; of the zero state that is 0xE7 (section 2.6). -/
theorem test_squeeze_permutes :
    exec .squeeze (squeezing 4 0x06 4 Lanes.zero) =
      .next (respond 0xE7 (squeezing 4 0x06 1 (keccakF Lanes.zero))) := by
  have h : byteAt (keccakF Lanes.zero) 0 = 0xE7 := by rw [test_keccakF_zero]; decide +kernel
  rw [execSqueeze_of rfl rfl 0 rfl, renewBlock_of_eq rfl, giveByte, renewBlock_of_eq rfl, ← h]
  rfl
/-- F13 to F18 and F1: the other causes, with their STATUS words. -/
theorem test_faults :
    shown (exec .final State.reset) = some (0x00000034, some ⟨0x00, 0x00000034⟩) ∧
    shown (exec .squeeze State.reset) = some (0x00000034, some ⟨0x00, 0x00000034⟩) ∧
    shown (exec (.absorb 0x61) State.reset) = some (0x00000034, some ⟨0x00, 0x00000034⟩) ∧
    shown (exec .squeeze (absorbing 136 0x06 0)) = some (0x06880045, some ⟨0x00, 0x06880045⟩) ∧
    shown (exec .final (squeezing 136 0x06 0 Lanes.zero)) =
      some (0x06880046, some ⟨0x00, 0x06880046⟩) ∧
    shown (exec (.absorb 0x01) (squeezing 136 0x06 0 Lanes.zero)) =
      some (0x06880046, some ⟨0x00, 0x06880046⟩) ∧
    shown (performWord 0x00000000 State.reset) = some (0x00000014, some ⟨0x00, 0x00000014⟩) ∧
    shown (performWord 0x00016102 State.reset) = some (0x00000014, some ⟨0x00, 0x00000014⟩) := by
  decide
/-- F19, F20: a faulted engine ignores every word, and a reset clears the fault. -/
theorem test_faulted :
    shown (performWord 0x00068801 faulted) = some (0x06880046, some ⟨0x00, 0x06880046⟩) ∧
    shown (performWord 0x00000000 faulted) = some (0x06880046, some ⟨0x00, 0x06880046⟩) ∧
    (shown (step { faulted with channel := [.reset] })).map Prod.fst = some 0x00000000 := by decide
/-- A word put where the next step takes it: the step runs it (spec/opcode_table.json's rows). -/
theorem test_withFetchWord :
    step (State.reset.withFetchWord 32 0x00000001) = exec (.init 0 0) State.reset ∧
    step (State.reset.withFetchWord 32 0x00000002) = exec (.absorb 0) State.reset ∧
    step (State.reset.withFetchWord 32 0x00000003) = exec .final State.reset ∧
    step (State.reset.withFetchWord 32 0x00000004) = exec .squeeze State.reset :=
  ⟨rfl, rfl, rfl, rfl⟩
/-- 95_test_vectors.md section 3.7: Sponge(4, 0x86, 0xAA × 7, 6) takes the pre-permute; FINAL's work is 2. -/
theorem test_work :
    work .final (absorbing 4 0x86 3) = 2 ∧ work .final (absorbing 4 0x06 3) = 1 ∧
    work (.absorb 0xAA) (absorbing 4 0x86 3) = 1 ∧ work (.absorb 0xAA) (absorbing 4 0x86 2) = 0 ∧
    work .squeeze (squeezing 4 0x86 4 Lanes.zero) = 1 ∧ work (.init 4 0x86) faulted = 0 := by decide
/-- The pseudo-instructions of R44, R46 and R47 as text. -/
theorem test_assembleText :
    assembleText "SHA3_256 ; a digest".toList = some [.init 136 0x06] ∧
    assembleText "  XOF SHAKE128, 0xFf00, 2".toList =
      some [.init 168 0x1F, .absorb 0xFF, .absorb 0x00, .final, .squeeze, .squeeze] ∧
    assembleText "ABSORBS \"a;,\"".toList = some [.absorb 0x61, .absorb 0x3B, .absorb 0x2C] ∧
    assembleProgram ["SHA3_256".toList, "FINAL".toList] = some [.init 136 0x06, .final] ∧
    assembleProgram ["SHA3_256".toList, "INIT 256, 0".toList] = none ∧
    assembleText "ABSORBS 0x616".toList = none ∧ assembleText "HASH SHAKE128, \"\"".toList = none ∧
    assembleText "NOP".toList = none := by decide

/-! ### Witnesses: for each statement with hypotheses, states and operands that meet them, clause by
clause and at the edges of the ranges -/

theorem witness_EncodeInvertsDecode : decode 0x00FFC801 = .legal (.init 200 0xFF) := by decide

theorem witness_DecodeFollowsOpcodeMap :
    ∃ (w : Word) (r : OpcodeRow), r ∈ opcodeTable ∧ r.covers w = true ∧
      w &&& 0xFF0000FF = 0x00000001 := 
  ⟨0x00FFFF01, ⟨"INIT", 0x00000001, 0xFF0000FF⟩, by decide⟩

/-- One word for each clause of the list, in its order. -/
theorem witness_ListedWordsAreIllegal :
    State.reset.fault = false ∧ (0x000000F1 : Word).extractLsb' 4 4 ≠ 0 ∧
    (0xFF000002 : Word).extractLsb' 24 8 ≠ 0 ∧ (0x00000000 : Word).extractLsb' 0 4 = 0 ∧
    5 ≤ ((0x00000005 : Word).extractLsb' 0 4).toNat ∧
    5 ≤ ((0x0000000F : Word).extractLsb' 0 4).toNat ∧
    ((0x00010002 : Word).extractLsb' 0 4 = 2 ∧ (0x00010002 : Word).extractLsb' 16 8 ≠ 0) ∧
    ((0x00000103 : Word).extractLsb' 0 4 = 3 ∧ (0x00000103 : Word).extractLsb' 8 8 ≠ 0) ∧
    ((0x00010004 : Word).extractLsb' 0 4 = 4 ∧ (0x00010004 : Word).extractLsb' 16 8 ≠ 0) := by
  decide

/-- The last bit of the last lane, and the first of the first. -/
theorem witness_LaneAndByteViewsAgree :
    (4 < 5 ∧ 63 < 64 ∧ (199 : Fin 200).val = 8 * (4 + 5 * 4) + 63 / 8) ∧
    (0 < 5 ∧ 0 < 64 ∧ (0 : Fin 200).val = 8 * (0 + 5 * 0) + 0 / 8) := by decide

theorem witness_AbsorbedByteLandsInItsLane :
    let s := absorbing 136 0x06 134
    s.fault = false ∧ s.phase = .absorb ∧ s.pos.toNat < 200 ∧ s.pos + 1 ≠ s.rate ∧
      1 < 5 ∧ 3 < 5 ∧ 55 < 64 := by decide

theorem witness_ResetSetsEveryRegister :
    ({ faulted with channel := [.reset, .command 3] } : State).channel = [.reset, .command 3] := rfl

theorem witness_ResetAbandonsCommandInFlight :
    ({ absorbing 1 0x86 0 with channel := [.resetDuring 3] } : State).channel = [.resetDuring 3] :=
  rfl

/-- Both clauses, at each end of their ranges. -/
theorem witness_InitFollowsItsRule :
    (absorbing 136 0x06 135).fault = false ∧
    (1 ≤ (1 : Byte).toNat ∧ (1 : Byte).toNat ≤ 200) ∧
    (1 ≤ (200 : Byte).toNat ∧ (200 : Byte).toNat ≤ 200) ∧
    ((0 : Byte) = 0 ∨ 200 < (0 : Byte).toNat) ∧ ((201 : Byte) = 0 ∨ 200 < (201 : Byte).toNat) ∧
    ((255 : Byte) = 0 ∨ 200 < (255 : Byte).toNat) := by decide

/-- A block with a byte left, a byte that fills the block at rates 1 and 200, and the other phases. -/
theorem witness_AbsorbFollowsItsRule :
    (∀ s ∈ [absorbing 136 0x06 134, absorbing 136 0x06 135, absorbing 1 0x06 0, absorbing 200 0x06 199],
      s.fault = false ∧ s.AbsorbBounds ∧ s.phase = .absorb) ∧
    (absorbing 136 0x06 134).pos.toNat + 1 < (absorbing 136 0x06 134).rate.toNat ∧
    (absorbing 1 0x06 0).pos.toNat + 1 = (absorbing 1 0x06 0).rate.toNat ∧
    (State.reset.AbsorbBounds ∧ State.reset.phase = .unconf) ∧
    ((squeezing 136 0x06 0 Lanes.zero).AbsorbBounds ∧
      (squeezing 136 0x06 0 Lanes.zero).phase = .squeeze) := by decide

/-- The pre-permute's clause and its negation: suffix bit 7 and the position decide. -/
theorem witness_FinalFollowsItsRule :
    (∀ s ∈ [absorbing 136 0x86 135, absorbing 136 0x06 135, absorbing 136 0x86 134, absorbing 1 0x86 0],
      s.fault = false ∧ s.AbsorbBounds ∧ s.phase = .absorb) ∧
    ((0x86 : Byte).getLsbD 7 = true ∧ (135 : Byte).toNat = (136 : Byte).toNat - 1) ∧
    ¬((0x06 : Byte).getLsbD 7 = true ∧ (135 : Byte).toNat = (136 : Byte).toNat - 1) ∧
    ¬((0x86 : Byte).getLsbD 7 = true ∧ (134 : Byte).toNat = (136 : Byte).toNat - 1) ∧
    State.reset.AbsorbBounds ∧ (squeezing 136 0x06 0 Lanes.zero).AbsorbBounds := by decide

/-- A used-up block, a block with its last byte left, a fresh one, and the other phases. -/
theorem witness_SqueezeFollowsItsRule :
    (∀ s ∈ [squeezing 200 0x06 200 Lanes.zero, squeezing 200 0x06 199 Lanes.zero,
        squeezing 1 0x06 0 Lanes.zero, squeezing 1 0x06 1 Lanes.zero],
      s.fault = false ∧ s.SqueezeBounds ∧ s.phase = .squeeze) ∧
    (State.reset.SqueezeBounds ∧ State.reset.phase = .unconf) ∧
    ((absorbing 136 0x06 0).SqueezeBounds ∧ (absorbing 136 0x06 0).phase = .absorb) := by decide

theorem witness_IndexOutsideStateStops :
    ((absorbing 255 0x06 200).phase = .absorb ∧ 200 ≤ (absorbing 255 0x06 200).pos.toNat) ∧
    (absorbing 0 0x06 0).rate = 0 ∧ 200 < (absorbing 201 0x06 0).rate.toNat ∧
    ((squeezing 255 0x06 200 Lanes.zero).phase = .squeeze ∧
      (squeezing 255 0x06 200 Lanes.zero).pos ≠ (squeezing 255 0x06 200 Lanes.zero).rate ∧
      200 ≤ (squeezing 255 0x06 200 Lanes.zero).pos.toNat) := by decide

theorem witness_NotConfiguredBeforeInit :
    State.reset.fault = false ∧ State.reset.phase = .unconf ∧
    (∀ a b, Instr.absorb 0x61 ≠ .init a b) ∧ (∀ a b, Instr.final ≠ .init a b) ∧
    (∀ a b, Instr.squeeze ≠ .init a b) :=
  ⟨rfl, rfl, nofun, nofun, nofun⟩

theorem witness_WrongPhaseIsRefused :
    ((squeezing 136 0x06 0 Lanes.zero).fault = false ∧
      (squeezing 136 0x06 0 Lanes.zero).phase = .squeeze) ∧
    ((absorbing 136 0x06 0).fault = false ∧ (absorbing 136 0x06 0).phase = .absorb) := by decide

theorem witness_FaultEntryIsPrecise :
    ∃ t, State.reset.fault = false ∧ performWord 0x00000000 State.reset = .next t ∧
      t.fault = true := ⟨_, rfl, rfl, rfl⟩

theorem witness_FaultedEngineIgnoresEveryWord :
    faulted.fault = true ∧
    ({ faulted with channel := [.command 0x00068801] } : State).channel = [.command 0x00068801] :=
  ⟨rfl, rfl⟩

/-- A step that leaves the fault, and one that does not. -/
theorem witness_OnlyResetLeavesTheFault :
    (∃ t, step { faulted with channel := [.reset] } = .next t ∧ t.fault = false) ∧
    (∃ t, step { faulted with channel := [.command 0x00068801] } = .next t ∧ t.fault = true) :=
  ⟨⟨_, rfl, rfl⟩, ⟨_, rfl, rfl⟩⟩

theorem witness_ChecksRunInOrder :
    faulted.fault = true ∧ State.reset.fault = false ∧
    decode 0x00016102 = .illegal .unusedOperand ∧ decode 0x00000003 = .legal .final := by decide

/-- A SQUEEZE that succeeds, and an ABSORB. -/
theorem witness_OneResponsePerCommand :
    (∃ t, performWord 0x00000004 (squeezing 136 0x06 0 Lanes.zero) = .next t ∧ t.fault = false ∧
      decode 0x00000004 = .legal .squeeze) ∧
    (∃ t, performWord 0x00006102 (absorbing 136 0x06 0) = .next t ∧
      ¬(decode 0x00006102 = .legal .squeeze ∧ t.fault = false)) :=
  ⟨⟨_, rfl, rfl, by decide⟩, ⟨_, rfl, by decide⟩⟩

theorem witness_StepRunsTheDecodedCommand :
    (State.reset.withFetchWord 32 0x00068801).channel = [.command 0x00068801] ∧
    decode 0x00068801 = .legal (.init 136 0x06) ∧ State.reset.channel = [] := by decide

theorem witness_WaitingCommandsWaitUnchanged :
    (∃ t, step { State.reset with channel := [.command 3, .command 4] } = .next t) ∧
    (∃ t, step { State.reset with channel := [.reset, .command 4] } = .next t) ∧
    (∀ w, Event.reset ≠ .command w) :=
  ⟨⟨_, rfl⟩, ⟨_, rfl⟩, nofun⟩

theorem witness_ChannelRunsInIssueOrder : State.reset.channel = [] := rfl

theorem witness_ResponsesReturnInOrder :
    ∃ u, performAll ([.init 136 0x06] ++ [.absorb 0x61]) State.reset = .next u := ⟨_, rfl⟩

/-- A command that writes them, and one that does not. -/
theorem witness_OnlyInitWritesRateAndSuffix :
    (∃ t, exec (.init 136 0x06) State.reset = .next t ∧ t.rate ≠ State.reset.rate) ∧
    (∃ t, exec (.absorb 0) (absorbing 136 0x06 0) = .next t) :=
  ⟨⟨_, rfl, by decide⟩, ⟨_, rfl⟩⟩

/-- The three transitions. -/
theorem witness_PhaseChangesAsListed :
    (∃ t, step { State.reset with channel := [.command 0x00068801] } = .next t ∧
      t.phase ≠ State.reset.phase) ∧
    (∃ t, step { absorbing 136 0x06 0 with channel := [.command 0x00000003] } = .next t ∧
      t.phase ≠ (absorbing 136 0x06 0).phase) ∧
    (∃ t, step { absorbing 136 0x06 0 with channel := [.reset] } = .next t ∧
      t.phase ≠ (absorbing 136 0x06 0).phase) :=
  ⟨⟨_, rfl, by decide⟩, ⟨_, rfl, by decide⟩, ⟨_, rfl, by decide⟩⟩

/-- ABSORB with a byte left in the block, and turned away; SQUEEZE below RATE, and turned away. -/
theorem witness_AbsorbAndSqueezeFrame :
    (∃ t, exec (.absorb 0x61) (absorbing 136 0x06 0) = .next t ∧ t.fault = false ∧
      (absorbing 136 0x06 0).pos + 1 ≠ (absorbing 136 0x06 0).rate ∧
      (199 : Fin 200).val ≠ (absorbing 136 0x06 0).pos.toNat) ∧
    (∃ t, exec (.absorb 0x61) State.reset = .next t ∧ t.fault = true) ∧
    (∃ t, exec .squeeze (squeezing 136 0x06 135 Lanes.zero) = .next t ∧ t.fault = false ∧
      (squeezing 136 0x06 135 Lanes.zero).pos ≠ (squeezing 136 0x06 135 Lanes.zero).rate) ∧
    (∃ t, exec .squeeze State.reset = .next t ∧ t.fault = true) :=
  ⟨⟨_, rfl, by decide⟩, ⟨_, rfl, rfl⟩, ⟨_, rfl, by decide⟩, ⟨_, rfl, rfl⟩⟩

theorem witness_InitAndFinalFrame :
    (∃ t, exec (.init 136 0x06) State.reset = .next t ∧ t.fault = false) ∧
    (∃ t, exec (.init 0 0x06) State.reset = .next t ∧ t.fault = true) ∧
    (∃ t, exec .final (absorbing 136 0x06 0) = .next t ∧ t.fault = false) ∧
    (∃ t, exec .final State.reset = .next t ∧ t.fault = true) :=
  ⟨⟨_, rfl, rfl⟩, ⟨_, rfl, rfl⟩, ⟨_, rfl, rfl⟩, ⟨_, rfl, rfl⟩⟩

/-- The first and the last byte of the capacity part. -/
theorem witness_CapacityChangesOnlyByPermutation :
    (absorbing 136 0x06 0).Inv ∧ work (.absorb 0x61) (absorbing 136 0x06 0) = 0 ∧
    (∃ t, exec (.absorb 0x61) (absorbing 136 0x06 0) = .next t) ∧
    (∀ a b, Instr.absorb 0x61 ≠ .init a b) ∧
    (absorbing 136 0x06 0).rate.toNat ≤ (136 : Fin 200).val ∧
    (absorbing 136 0x06 0).rate.toNat ≤ (199 : Fin 200).val :=
  ⟨by decide, by decide, ⟨_, rfl⟩, nofun, by decide, by decide⟩

/-- A SQUEEZE with the one byte the same, and a word that is no SQUEEZE. -/
theorem witness_StateIsSeenOnlyThroughSqueeze :
    (decode 0x00000004 = .legal .squeeze ∧
      (squeezing 136 0x06 0 Lanes.zero).pos ≠ (squeezing 136 0x06 0 Lanes.zero).rate ∧
      (∀ i : Fin 200, i.val = (squeezing 136 0x06 0 Lanes.zero).pos.toNat →
        byteAt (oneLane 4 4 1) i = byteAt (squeezing 136 0x06 0 Lanes.zero).lanes i) ∧
      ∃ t, performWord 0x00000004 (squeezing 136 0x06 0 Lanes.zero) = .next t) ∧
    (decode 0x00000003 ≠ .legal .squeeze ∧
      ∃ t, performWord 0x00000003 (absorbing 136 0x06 0) = .next t) := by
  refine ⟨⟨by decide, by decide, ?_, ⟨_, rfl⟩⟩, by decide, ⟨_, rfl⟩⟩
  intro i hi
  cases (Fin.ext hi : i = 0)
  decide

/-- A state of each phase that meets the invariants, with a step of it. -/
theorem witness_StepKeepsInvariants :
    (∃ t, State.reset.Inv ∧ step (State.reset.withFetchWord 32 0x00068801) = .next t) ∧
    (absorbing 1 0x86 0).Inv ∧ (squeezing 200 0x06 200 Lanes.zero).Inv ∧ faulted.Inv :=
  ⟨⟨_, by decide, rfl⟩, by decide, by decide, by decide⟩

theorem witness_NoStopUnderInvariants : (absorbing 200 0xFF 199).Inv := by decide

theorem witness_RotlMovesEachBit : 63 < 64 ∧ 0 % 64 = 0 ∧ 64 % 64 = 0 := by decide

/-- 95_test_vectors.md section 2.2: a state whose every column has even parity. -/
theorem witness_ThetaFollowsItsRule :
    4 < 5 ∧ ∀ x, x < 5 →
      columnParity (sparse [(3, 0, 0xFFFFFFFFFFFFFFFF), (3, 2, 0xFFFFFFFFFFFFFFFF)]) x = 0 := by
  decide

theorem witness_RhoPiWalkIsTheClosedForm : 4 < 5 := by decide

theorem witness_RhoOffsetsAreTheWalks : 23 < 24 := by decide

/-- A row of zeros and a row of ones. -/
theorem witness_ChiFollowsItsRule :
    4 < 5 ∧ (∀ x, x < 5 → laneAt Lanes.zero x 4 = 0) ∧
    ∀ x, x < 5 → laneAt (Vector.replicate 25 (BitVec.allOnes 64)) x 0 = BitVec.allOnes 64 := by decide

theorem witness_LfsrStaysAliveForOnePermutation : 168 ≤ 168 := by decide

/-- Another lane, and a bit of lane (0,0) that is none of the seven. -/
theorem witness_IotaTouchesSevenBits :
    ¬(4 = 0 ∧ 4 = 0 ∧ 0 ∈ [0, 1, 3, 7, 15, 31, 63]) ∧
    ¬(0 = 0 ∧ 0 = 0 ∧ 62 ∈ [0, 1, 3, 7, 15, 31, 63]) := by decide

theorem witness_ByteAbsorptionIsBlockAbsorption :
    1 ≤ (1 : Byte).toNat ∧ (200 : Byte).toNat ≤ 200 ∧ State.reset.fault = false := by decide

/-- Each clause: FINAL at POS = RATE − 1 with and without a suffix, after the message whose blocks the
lanes hold; the operands of the other clauses; and a state for each suffix named. -/
theorem witness_FinalIsPad101 :
    (∀ suffix ∈ [(0x86 : Byte), 0x00],
      let s := { absorbing 8 suffix 7 with lanes := absorbMessage 8 [1, 2, 3, 4, 5, 6, 7] }
      s.fault = false ∧ s.phase = .absorb ∧ 1 ≤ s.rate.toNat ∧ s.rate.toNat ≤ 200 ∧
        s.lanes = absorbMessage s.rate.toNat [1, 2, 3, 4, 5, 6, 7] ∧
        s.pos.toNat = [(1 : Byte), 2, 3, 4, 5, 6, 7].length % s.rate.toNat ∧
        (7 : Fin 200).val = s.rate.toNat - 1) ∧
    (1 ≤ (200 : Byte).toNat ∧ (200 : Byte).toNat ≤ 200 ∧ State.reset.fault = false) ∧
    ((7 : Fin 200).val = [(0 : Byte), 0, 0, 0, 0, 0, 0].length % 8 ∧ (7 : Fin 200).val = 8 - 1) ∧
    (0x86 : Byte) ≠ 0 ∧ (1 ≤ (absorbing 136 0x86 135).rate.toNat) ∧
    (0x86 : Byte).toNat.log2 = 7 ∧ (absorbing 1 0x00 0).suffix = 0 ∧
    (absorbing 1 0x06 0).suffix = 0x06 ∧ (absorbing 1 0x1F 0).suffix = 0x1F := by
  refine ⟨fun suffix h => ?_, by decide⟩
  simp only [List.mem_cons, List.not_mem_nil, or_false] at h
  obtain rfl | rfl := h <;> exact ⟨rfl, rfl, by decide, by decide, rfl, by decide, by decide⟩

theorem witness_CommandsComputeTheSponge :
    (1 ≤ (136 : Byte).toNat ∧ (136 : Byte).toNat ≤ 200) ∧ State.reset.fault = false ∧
      State.reset.channel = [] := by decide

theorem witness_HostProtocolReachesNoFault :
    (∀ h ∈ [((1 : Byte), (0x06 : Byte), [(0x61 : Byte)], 3), (200, 0xFF, [], 0)],
      1 ≤ h.1.toNat ∧ h.1.toNat ≤ 200) ∧
    State.reset.fault = false ∧ State.reset.channel = [] := by decide

/-- Two engines with different histories. -/
theorem witness_HashForgetsTheHistory :
    State.reset.fault = false ∧ (squeezing 72 0x06 3 (oneLane 1 1 1)).fault = false ∧
    State.reset.FaultRecorded ∧ (squeezing 72 0x06 3 (oneLane 1 1 1)).FaultRecorded ∧
    1 ≤ (200 : Byte).toNat ∧ (200 : Byte).toNat ≤ 200 := by decide

theorem witness_SqueezingIsPrefixStable :
    let s := squeezing 168 0x1F 168 Lanes.zero
    s.fault = false ∧ s.phase = .squeeze ∧ s.SqueezeBounds := by decide

theorem witness_PermutationCountOfAHash :
    1 ≤ (4 : Byte).toNat ∧ (4 : Byte).toNat ≤ 200 ∧ (faulted.fault = true) ∧
      State.reset.fault = false := by decide

/-- A command of each kind that succeeds. -/
theorem witness_WorkCountsThePermutations :
    (∃ t, exec (.init 4 0x86) State.reset = .next t ∧ t.fault = false) ∧
    (∃ t, exec (.absorb 0xAA) (absorbing 4 0x86 2) = .next t ∧ t.fault = false) ∧
    (∃ t, exec .final (absorbing 4 0x86 3) = .next t ∧ t.fault = false) ∧
    (∃ t, exec .squeeze (squeezing 4 0x86 0 Lanes.zero) = .next t ∧ t.fault = false) :=
  ⟨⟨_, rfl, rfl⟩, ⟨_, rfl, rfl⟩, ⟨_, rfl, rfl⟩, ⟨_, rfl, rfl⟩⟩

/-- Two platforms that hold engine 1 in the same state. -/
theorem witness_EnginesShareNothing :
    (∃ q, platformStep 1 [faulted, State.reset.withFetchWord 32 3] = .next q) ∧
    [State.reset, State.reset.withFetchWord 32 3, faulted][1]? =
      [faulted, State.reset.withFetchWord 32 3][1]? := ⟨⟨_, rfl⟩, rfl⟩

theorem witness_AssemblerChecksOperands :
    (255 < 256 ∧ 0 < 256) ∧ ¬(256 < 256 ∧ 0 < 256) ∧ ¬(0 < 256 ∧ 256 < 256) ∧ ¬256 < 256 := by
  decide

theorem witness_PseudoInstructionsExpand :
    (∀ c ∈ ['a', 'b', '\x7f'], c.toNat < 128 ∧ c ≠ quoteChar) ∧
    (AsmBytes.hex ['0', 'F', 'f', '9']).wellFormed = true ∧ ['0', 'F', 'f'].length % 2 = 1 ∧
    Variant.sha3_512 ∈ [Variant.sha3_224, .sha3_256, .sha3_384, .sha3_512] ∧
    Variant.shake128 ∈ [Variant.shake128, .shake256] :=
  ⟨by simp [quoteChar], by decide, by decide, by decide, by decide⟩

theorem witness_StandardFunctionsAreTheSponge :
    (AsmBytes.text ['a', 'b', 'c']).wellFormed = true ∧ State.reset.fault = false := by decide

end Sys2Proof.Machine
end

section
/-! The lane view and the byte view are one storage (10_state.md R16): each view read after a write
through the other. -/

namespace Sys2Proof.Machine

/-- S[i] lies in A[x,y] exactly when `i div 8` is x + 5y (R16). -/
theorem laneOfByte_eq_laneIndex_iff (i : Fin 200) {x y : Nat} (hx : x < 5) (hy : y < 5) :
    laneOfByte i = laneIndex x y ↔ i.val / 8 = x + 5 * y := by
  rw [Fin.ext_iff, laneIndex_val, Nat.mod_eq_of_lt hx, Nat.mod_eq_of_lt hy]
  rfl

/-- A bit of a lane is a bit of the byte that holds it (R16). -/
theorem laneAt_getLsbD_eq_byteAt (A : Lanes) {i : Fin 200} {x y k : Nat}
    (hl : laneOfByte i = laneIndex x y) (hs : shiftOfByte i + k % 8 = k) :
    (laneAt A x y).getLsbD k = (byteAt A i).getLsbD (k % 8) := by
  have hk : k % 8 < 8 := Nat.mod_lt _ (by decide)
  simp only [byteAt_getLsbD, hl, hs, hk, decide_true, Bool.true_and, laneAt]

/-- Reading any byte after a lane was written. -/
theorem byteAt_writeLane (A : Lanes) (x y : Nat) (v : Lane) (i : Fin 200) :
    byteAt (writeLane A x y v) i =
      if laneOfByte i = laneIndex x y then v.extractLsb' (shiftOfByte i) 8 else byteAt A i := by
  split
  next h => simp [byteAt, writeLane, h]
  next h =>
    have hne : (laneIndex x y).val ≠ (laneOfByte i).val := fun e => h (Fin.ext e.symm)
    simp [byteAt, writeLane, hne]

/-- Reading any lane after a byte was written. -/
theorem laneAt_writeByte (A : Lanes) (i : Fin 200) (v : Byte) (x y : Nat) :
    laneAt (writeByte A i v) x y =
      if laneOfByte i = laneIndex x y then insertByte (laneAt A x y) (shiftOfByte i) v
      else laneAt A x y := by
  split
  next h => simp [laneAt, writeByte, h]
  next h =>
    have hne : (laneOfByte i).val ≠ (laneIndex x y).val := fun e => h (Fin.ext e)
    simp [laneAt, writeByte, hne]

/-- Settles O6: a lane and a byte share bits exactly when the byte's lane number is the lane's, and
each view's read after a write through the other follows that split. -/
theorem laneAndByteViewsAgree : Obligations.LaneAndByteViewsAgree := by
  intro A x y hx hy
  refine ⟨fun k i hk hi => ?_, fun v i => ?_, fun v i k hk => ?_⟩
  · have hl : i.val / 8 = x + 5 * y := by omega
    have hs : shiftOfByte i + k % 8 = k := by unfold shiftOfByte; omega
    exact laneAt_getLsbD_eq_byteAt A ((laneOfByte_eq_laneIndex_iff i hx hy).2 hl) hs
  · simp only [byteAt_writeLane, laneOfByte_eq_laneIndex_iff i hx hy, shiftOfByte]
  · rw [laneAt_writeByte]
    simp only [laneOfByte_eq_laneIndex_iff i hx hy]
    by_cases hl : i.val / 8 = x + 5 * y
    · simp only [hl, true_and, if_true, insertByte_getLsbD _ _ _ _ hk, shiftOfByte]
    · simp only [hl, false_and, if_false]

end Sys2Proof.Machine
end

section
/-! The decoder and the opcode map (30_encoding.md R40, R42): both read a word by its five fields, so a
masked comparison of words is a masked comparison of each field. -/

namespace Sys2Proof

/-- The fields of R38 cover the word. -/
theorem word_eq_iff_fields (w v : Word) :
    w = v ↔ cmdOp w = cmdOp v ∧ cmdZ1 w = cmdZ1 v ∧ cmdA w = cmdA v ∧ cmdB w = cmdB v ∧
      cmdZ2 w = cmdZ2 v := by
  refine ⟨fun h => h ▸ ⟨rfl, rfl, rfl, rfl, rfl⟩, fun ⟨hop, hz1, ha, hb, hz2⟩ => ?_⟩
  simp only [cmdOp, cmdZ1, cmdA, cmdB, cmdZ2, ← BitVec.toNat_inj, BitVec.extractLsb'_toNat,
    Nat.shiftRight_eq_div_pow] at hop hz1 ha hb hz2
  bv_omega

/-- Masking a word masks each of its fields. -/
theorem and_eq_iff_fields (w m p : Word) :
    w &&& m = p ↔ cmdOp w &&& cmdOp m = cmdOp p ∧ cmdZ1 w &&& cmdZ1 m = cmdZ1 p ∧
      cmdA w &&& cmdA m = cmdA p ∧ cmdB w &&& cmdB m = cmdB p ∧ cmdZ2 w &&& cmdZ2 m = cmdZ2 p := by
  simp only [word_eq_iff_fields (w &&& m) p, cmdOp, cmdZ1, cmdA, cmdB, cmdZ2,
    BitVec.extractLsb'_and]

theorem and_initMask_eq_iff (w : Word) :
    w &&& 0xFF0000FF = 0x00000001 ↔ cmdOp w = 1 ∧ cmdZ1 w = 0 ∧ cmdZ2 w = 0 := by
  rw [and_eq_iff_fields]
  change cmdOp w &&& BitVec.allOnes 4 = 1 ∧ cmdZ1 w &&& BitVec.allOnes 4 = 0 ∧ cmdA w &&& 0#8 = 0#8 ∧
    cmdB w &&& 0#8 = 0#8 ∧ cmdZ2 w &&& BitVec.allOnes 8 = 0 ↔ _
  simp only [BitVec.and_allOnes, BitVec.and_zero, true_and]

theorem and_absorbMask_eq_iff (w : Word) :
    w &&& 0xFFFF00FF = 0x00000002 ↔ cmdOp w = 2 ∧ cmdZ1 w = 0 ∧ cmdB w = 0 ∧ cmdZ2 w = 0 := by
  rw [and_eq_iff_fields]
  change cmdOp w &&& BitVec.allOnes 4 = 2 ∧ cmdZ1 w &&& BitVec.allOnes 4 = 0 ∧ cmdA w &&& 0#8 = 0#8 ∧
    cmdB w &&& BitVec.allOnes 8 = 0 ∧ cmdZ2 w &&& BitVec.allOnes 8 = 0 ↔ _
  simp only [BitVec.and_allOnes, BitVec.and_zero, true_and]

/-- The mask of the commands without operands leaves nothing out. -/
theorem and_fullMask (w : Word) : w &&& 0xFFFFFFFF = w := BitVec.and_allOnes

/-- What the decoder answers with a command (R42): the reserved fields are zero, and the command is
that of the code, its unused operands zero. -/
theorem decode_eq_legal_iff (w : Word) (i : Instr) :
    decode w = .legal i ↔ cmdZ1 w = 0 ∧ cmdZ2 w = 0 ∧
      ((cmdOp w = 1 ∧ .init (cmdA w) (cmdB w) = i) ∨
       (cmdOp w = 2 ∧ cmdB w = 0 ∧ .absorb (cmdA w) = i) ∨
       (cmdOp w = 3 ∧ cmdA w = 0 ∧ cmdB w = 0 ∧ .final = i) ∨
       (cmdOp w = 4 ∧ cmdA w = 0 ∧ cmdB w = 0 ∧ .squeeze = i)) := by
  unfold decode
  split
  next hz =>
    refine ⟨nofun, fun ⟨hz1, hz2, _⟩ => ?_⟩
    exact (hz.elim (· hz1) (· hz2)).elim
  next hz =>
    obtain ⟨hz1, hz2⟩ : cmdZ1 w = 0 ∧ cmdZ2 w = 0 := by simpa using hz
    split
    next hop => simp [hz1, hz2, hop]
    split
    next hop => split <;> simp_all
    split
    next hop => split <;> simp_all
    split
    next hop => split <;> simp_all
    next => simp_all

/-- INIT's row (R40). -/
theorem initRow_iff_decode (w : Word) :
    w &&& 0xFF0000FF = 0x00000001 ↔ decode w = .legal (.init (cmdA w) (cmdB w)) := by
  rw [and_initMask_eq_iff, decode_eq_legal_iff]
  simp only [and_true, reduceCtorEq, and_false, or_false]
  tauto

/-- ABSORB's row (R40). -/
theorem absorbRow_iff_decode (w : Word) :
    w &&& 0xFFFF00FF = 0x00000002 ↔ decode w = .legal (.absorb (cmdA w)) := by
  rw [and_absorbMask_eq_iff, decode_eq_legal_iff]
  simp only [and_true, reduceCtorEq, and_false, or_false, false_or]
  tauto

/-- FINAL's row (R40): the word is the row's pattern, field by field. -/
theorem finalRow_iff_decode (w : Word) :
    w &&& 0xFFFFFFFF = 0x00000003 ↔ decode w = .legal .final := by
  rw [and_fullMask, word_eq_iff_fields, decode_eq_legal_iff]
  change cmdOp w = 3 ∧ cmdZ1 w = 0 ∧ cmdA w = 0 ∧ cmdB w = 0 ∧ cmdZ2 w = 0 ↔ _
  simp only [and_true, reduceCtorEq, and_false, or_false, false_or]
  tauto

/-- SQUEEZE's row (R40): the word is the row's pattern, field by field. -/
theorem squeezeRow_iff_decode (w : Word) :
    w &&& 0xFFFFFFFF = 0x00000004 ↔ decode w = .legal .squeeze := by
  rw [and_fullMask, word_eq_iff_fields, decode_eq_legal_iff]
  change cmdOp w = 4 ∧ cmdZ1 w = 0 ∧ cmdA w = 0 ∧ cmdB w = 0 ∧ cmdZ2 w = 0 ↔ _
  simp only [and_true, reduceCtorEq, and_false, false_or]
  tauto

/-- Every mask of the map keeps OP. -/
theorem cmdOp_mask_of_mem_opcodeTable :
    ∀ r ∈ opcodeTable, cmdOp r.mask = BitVec.allOnes 4 := by decide

/-- No two rows of the map share a code. -/
theorem opcodeTable_cmdOp_injective :
    ∀ r ∈ opcodeTable, ∀ r' ∈ opcodeTable, cmdOp r.pattern = cmdOp r'.pattern → r = r' := by decide

/-- A row covers only words of its code. -/
theorem cmdOp_eq_of_covers {r : OpcodeRow} {w : Word} (hr : r ∈ opcodeTable)
    (h : r.covers w = true) : cmdOp w = cmdOp r.pattern := by
  obtain ⟨hop, _⟩ := (and_eq_iff_fields w r.mask r.pattern).1 (eq_of_beq h)
  rwa [cmdOp_mask_of_mem_opcodeTable r hr, BitVec.and_allOnes] at hop

end Sys2Proof

namespace Sys2Proof.Machine

/-- Settles O3: row by row through the fields, and two rows that cover one word share its code. -/
theorem decodeFollowsOpcodeMap : Obligations.DecodeFollowsOpcodeMap := by
  refine ⟨fun w => ⟨initRow_iff_decode w, absorbRow_iff_decode w, finalRow_iff_decode w,
    squeezeRow_iff_decode w⟩, fun w r r' hr hr' hc hc' => ?_⟩
  have hop : cmdOp r.pattern = cmdOp r'.pattern :=
    (cmdOp_eq_of_covers hr hc).symm.trans (cmdOp_eq_of_covers hr' hc')
  exact opcodeTable_cmdOp_injective r hr r' hr' hop

end Sys2Proof.Machine
end

section
/-! The transforms of the permutation, each against its rule (40_permutation.md R48 to R53, R56): what
they leave in a lane, and the walk of rho+pi against its closed form. -/

namespace Sys2Proof.Machine

/-- A lane of a state computed all at once, where no index wraps. -/
theorem laneAt_lanesOf_of_lt (f : Nat → Nat → Lane) {x y : Nat} (hx : x < 5) (hy : y < 5) :
    laneAt (lanesOf f) x y = f x y := by
  rw [laneAt_lanesOf, Nat.mod_eq_of_lt hx, Nat.mod_eq_of_lt hy]

/-! ### ROTL64 -/

/-- At o mod 64 = 0 the right shift by 64 leaves nothing, so the case R48 singles out is no exception. -/
theorem rotl64_eq_rotateLeft (v : Lane) (o : Nat) : rotl64 v o = v.rotateLeft o := by
  unfold rotl64
  split
  next h => simp [BitVec.rotateLeft_def, h, BitVec.ushiftRight_eq_zero (le_refl 64)]
  next => rfl

theorem rotl64_of_mod_eq_zero (v : Lane) {o : Nat} (h : o % 64 = 0) : rotl64 v o = v := if_pos h

/-- Only o mod 64 counts (R48). -/
theorem rotl64_mod (v : Lane) (o : Nat) : rotl64 v (o % 64) = rotl64 v o := by
  rw [rotl64, rotl64, Nat.mod_mod]

theorem rotl64_zero_lane (o : Nat) : rotl64 0 o = 0 := by
  unfold rotl64
  split <;> simp

theorem getLsbD_rotl64 (v : Lane) (o : Nat) {k : Nat} (hk : k < 64) :
    (rotl64 v o).getLsbD ((k + o) % 64) = v.getLsbD k := by
  rw [rotl64_eq_rotateLeft, BitVec.getLsbD_rotateLeft]
  by_cases hw : k + o % 64 < 64
  · have hn : (k + o) % 64 = k + o % 64 := by omega
    simp [hn, hw]
  · have hn : (k + o) % 64 = k + o % 64 - 64 := by omega
    have hlt : k + o % 64 - 64 < o % 64 := by omega
    have hback : 64 - o % 64 + (k + o % 64 - 64) = k := by omega
    simp [hn, hlt, hback]

/-- Settles O37: ROTL64 is the library's left rotation. -/
theorem rotlMovesEachBit : Obligations.RotlMovesEachBit :=
  fun v o => ⟨fun _ hk => getLsbD_rotl64 v o hk, rotl64_of_mod_eq_zero v⟩

/-! ### Theta -/

theorem laneAt_theta (A : Lanes) {x y : Nat} (hx : x < 5) (hy : y < 5) :
    laneAt (theta A) x y = laneAt A x y ^^^ thetaEffect A x :=
  laneAt_lanesOf_of_lt _ hx hy

theorem thetaEffect_eq_zero {A : Lanes} (h : ∀ x, x < 5 → columnParity A x = 0) (x : Nat) :
    thetaEffect A x = 0 := by
  have hl : columnParity A ((x + 4) % 5) = 0 := h _ (Nat.mod_lt _ (by decide))
  have hr : columnParity A ((x + 1) % 5) = 0 := h _ (Nat.mod_lt _ (by decide))
  rw [thetaEffect, hl, hr, rotl64_zero_lane]
  exact BitVec.xor_zero

/-- Settles O38: the parities of even columns are 0, so D[x] is 0 and theta XORs nothing. -/
theorem thetaFollowsItsRule : Obligations.ThetaFollowsItsRule := by
  refine fun A => ⟨fun x y hx hy => laneAt_theta A hx hy, fun h => ?_⟩
  refine lanes_ext fun x y hx hy => ?_
  rw [laneAt_theta A hx hy, thetaEffect_eq_zero h]
  exact BitVec.xor_zero

/-! ### Rho and pi -/

/-- The table's offset for the lane carried at each step of the walk (R50, R51). -/
theorem rhoOffset_walkPlace : ∀ t, t < 24 →
    rhoOffset (walkPlace t).1 (walkPlace t).2 = (t + 1) * (t + 2) / 2 % 64 := by decide

/-- The walk starts on each lane but (0,0) once. -/
theorem exists_walkPlace_eq : ∀ x, x < 5 → ∀ y, y < 5 → (x, y) ≠ (0, 0) →
    ∃ t, t < 24 ∧ walkPlace t = (x, y) := by decide

/-- The walk never arrives on lane (0,0). -/
theorem walkPlace_succ_ne_origin : ∀ t, t < 24 → walkPlace (t + 1) ≠ (0, 0) := by decide

theorem foldl_range_eq_walkPlace (t : Nat) :
    (List.range t).foldl (fun q _ => (q.2, (2 * q.1 + 3 * q.2) % 5)) (1, 0) = walkPlace t := by
  induction t with
  | zero => rfl
  | succ t ih => rw [List.range_succ, List.foldl_append, ih]; rfl

/-- Settles O40: the statement's fold is the walk's place. -/
theorem rhoOffsetsAreTheWalks : Obligations.RhoOffsetsAreTheWalks := by
  refine ⟨rfl, fun t ht => ?_⟩
  rw [foldl_range_eq_walkPlace]
  exact rhoOffset_walkPlace t ht

/-- Lane (0,0) stays where it is, for the walk never arrives there. -/
theorem laneAt_rhoPi_origin (A : Lanes) : laneAt (rhoPi A) 0 0 = laneAt A 0 0 := by
  obtain ⟨-, -, -, -, -, hkept⟩ := walk_invariant A 24 le_rfl
  exact hkept 0 0 (by decide) (by decide) walkPlace_succ_ne_origin

/-- What the walk leaves in the lane it arrives on: the lane carried there, rotated by the table's
offset. -/
theorem laneAt_rhoPi_walkPlace (A : Lanes) {t : Nat} (ht : t < 24) :
    laneAt (rhoPi A) (walkPlace (t + 1)).1 (walkPlace (t + 1)).2 =
      rotl64 (laneAt A (walkPlace t).1 (walkPlace t).2)
        (rhoOffset (walkPlace t).1 (walkPlace t).2) := by
  obtain ⟨-, -, -, -, hwritten, -⟩ := walk_invariant A 24 le_rfl
  rw [rhoOffset_walkPlace t ht, rotl64_mod]
  exact hwritten t ht

/-- The walk moves each lane as the closed form says (R52). -/
theorem laneAt_rhoPi (A : Lanes) {x y : Nat} (hx : x < 5) (hy : y < 5) :
    laneAt (rhoPi A) y ((2 * x + 3 * y) % 5) = rotl64 (laneAt A x y) (rhoOffset x y) := by
  by_cases h0 : (x, y) = (0, 0)
  · cases h0
    exact laneAt_rhoPi_origin A
  · obtain ⟨t, ht, hp⟩ := exists_walkPlace_eq x hx y hy h0
    simpa only [walkPlace, hp] using laneAt_rhoPi_walkPlace A ht

theorem rhoPi_eq_rhoPiClosed (A : Lanes) : rhoPi A = rhoPiClosed A := by
  refine lanes_ext fun u v hu hv => ?_
  have hx : (u + 3 * v) % 5 < 5 := Nat.mod_lt _ (by decide)
  have hdest : (2 * ((u + 3 * v) % 5) + 3 * u) % 5 = v := by omega
  have hwalk := laneAt_rhoPi A hx hu
  rw [hdest] at hwalk
  rw [hwalk, rhoPiClosed, laneAt_lanesOf_of_lt _ hu hv]

/-- Settles O39: the walk starts on every lane but (0,0), and writes each where R52 puts it. -/
theorem rhoPiWalkIsTheClosedForm : Obligations.RhoPiWalkIsTheClosedForm :=
  fun A => ⟨rhoPi_eq_rhoPiClosed A, fun _ _ hx hy => laneAt_rhoPi A hx hy⟩

/-! ### Chi -/

theorem laneAt_chi (A : Lanes) {x y : Nat} (hx : x < 5) (hy : y < 5) :
    laneAt (chi A) x y =
      laneAt A x y ^^^ (~~~laneAt A ((x + 1) % 5) y &&& laneAt A ((x + 2) % 5) y) :=
  laneAt_lanesOf_of_lt _ hx hy

/-- A row of one lane value `v` is unchanged: no bit is in both `v` and its complement. -/
theorem laneAt_chi_of_row_eq {A : Lanes} {y : Nat} (hy : y < 5) {v : Lane}
    (h : ∀ x, x < 5 → laneAt A x y = v) {x : Nat} (hx : x < 5) : laneAt (chi A) x y = v := by
  have h1 : laneAt A ((x + 1) % 5) y = v := h _ (Nat.mod_lt _ (by decide))
  have h2 : laneAt A ((x + 2) % 5) y = v := h _ (Nat.mod_lt _ (by decide))
  have hnone : ~~~v &&& v = 0 := by ext; simp
  rw [laneAt_chi A hx hy, h x hx, h1, h2, hnone]
  exact BitVec.xor_zero

/-- Settles O41: zeros and ones are rows of one lane value. -/
theorem chiFollowsItsRule : Obligations.ChiFollowsItsRule :=
  fun A _ hy => ⟨fun _ hx => laneAt_chi A hx hy, fun h _ hx => laneAt_chi_of_row_eq hy h hx,
    fun h _ hx => laneAt_chi_of_row_eq hy h hx⟩

/-! ### Iota -/

/-- The bits seven steps flip from where `i` rounds leave the LFSR are those of the table (R56). -/
theorem roundConstants_getElem?_eq_iotaMask :
    ∀ i : Fin 24, roundConstants[i.val]? = some (iotaMask (lfsrNext^[7 * i.val] 0x01) 7) := by
  decide

/-- Settles O44: iota XORs the mask of its seven steps, and the mask of round i is RC[i]. -/
theorem iotaIsTheRoundConstant : Obligations.IotaIsTheRoundConstant := by
  refine fun A i => ⟨_, roundConstants_getElem?_eq_iotaMask i, ?_⟩
  rw [Nat.add_comm (7 * i.val) 7, Function.iterate_add_apply]
  exact iota_steps A _ 7

end Sys2Proof.Machine
end

section
/-! What the four commands leave, field by field, and their rules in the terms of the registers'
values (41_sponge.md R59 to R62). -/

namespace Sys2Proof

/-- Every command decodes from its word (30_encoding.md R39, R40, R42). -/
theorem decode_encode (i : Instr) : decode (encode i) = .legal i := by
  rw [decode_eq_legal_iff]
  cases i <;> simp [encode, cmdOp_packCommand, cmdZ1_packCommand, cmdZ2_packCommand,
    cmdA_packCommand, cmdB_packCommand]

end Sys2Proof

namespace Sys2Proof.Machine

/-! ### The fields of what ABSORB and SQUEEZE leave -/

@[simp] theorem takeByte_lanes (d : Byte) (i : Fin 200) (s : State) :
    (takeByte d i s).lanes = xorByte s.lanes i d := rfl
@[simp] theorem takeByte_rate (d : Byte) (i : Fin 200) (s : State) :
    (takeByte d i s).rate = s.rate := rfl
@[simp] theorem takeByte_suffix (d : Byte) (i : Fin 200) (s : State) :
    (takeByte d i s).suffix = s.suffix := rfl
@[simp] theorem takeByte_pos (d : Byte) (i : Fin 200) (s : State) :
    (takeByte d i s).pos = s.pos + 1 := rfl
@[simp] theorem takeByte_phase (d : Byte) (i : Fin 200) (s : State) :
    (takeByte d i s).phase = s.phase := rfl
@[simp] theorem takeByte_fault (d : Byte) (i : Fin 200) (s : State) :
    (takeByte d i s).fault = s.fault := rfl
@[simp] theorem takeByte_cause (d : Byte) (i : Fin 200) (s : State) :
    (takeByte d i s).cause = s.cause := rfl
@[simp] theorem takeByte_channel (d : Byte) (i : Fin 200) (s : State) :
    (takeByte d i s).channel = s.channel := rfl
@[simp] theorem takeByte_responses (d : Byte) (i : Fin 200) (s : State) :
    (takeByte d i s).responses = s.responses := rfl

@[simp] theorem giveByte_lanes (s : State) : (giveByte s).lanes = (renewBlock s).lanes := rfl
@[simp] theorem giveByte_pos (s : State) : (giveByte s).pos = (renewBlock s).pos + 1 := rfl
@[simp] theorem giveByte_rate (s : State) : (giveByte s).rate = s.rate := renewBlock_rate s
@[simp] theorem giveByte_suffix (s : State) : (giveByte s).suffix = s.suffix := renewBlock_suffix s
@[simp] theorem giveByte_phase (s : State) : (giveByte s).phase = s.phase := renewBlock_phase s
@[simp] theorem giveByte_fault (s : State) : (giveByte s).fault = s.fault := renewBlock_fault s
@[simp] theorem giveByte_cause (s : State) : (giveByte s).cause = s.cause := renewBlock_cause s
@[simp] theorem giveByte_channel (s : State) : (giveByte s).channel = s.channel :=
  renewBlock_channel s
@[simp] theorem giveByte_responses (s : State) : (giveByte s).responses = s.responses :=
  renewBlock_responses s

/-! ### Positions -/

/-- A position below 200 as an index of S. -/
theorem exists_byteIndex {n : Nat} (h : n < 200) : ∃ i : Fin 200, n = i.val := ⟨⟨n, h⟩, rfl⟩

/-- A position below RATE reaches it when it advances exactly at RATE − 1. -/
theorem pos_succ_eq_rate_iff {p r : Byte} (h : p.toNat < r.toNat) :
    p + 1 = r ↔ p.toNat + 1 = r.toNat := by
  rw [← BitVec.toNat_inj, pos_succ h]

/-- POS after an ABSORB: it counts the bytes of the block and is never RATE (R60). -/
theorem renewBlock_takeByte_pos_toNat (d : Byte) (i : Fin 200) {s : State}
    (h : s.pos.toNat < s.rate.toNat) :
    (renewBlock (takeByte d i s)).pos.toNat =
      if s.pos.toNat + 1 = s.rate.toNat then 0 else s.pos.toNat + 1 := by
  simp only [renewBlock_pos, takeByte_pos, takeByte_rate, pos_succ_eq_rate_iff h]
  split
  · rfl
  · exact pos_succ h

theorem renewBlock_takeByte_lanes (d : Byte) (i : Fin 200) {s : State}
    (h : s.pos.toNat < s.rate.toNat) :
    (renewBlock (takeByte d i s)).lanes =
      if s.pos.toNat + 1 = s.rate.toNat then keccakF (xorByte s.lanes i d)
      else xorByte s.lanes i d := by
  simp only [renewBlock_lanes, takeByte_pos, takeByte_rate, takeByte_lanes, pos_succ_eq_rate_iff h]

/-- The position SQUEEZE reads is below RATE (R62). -/
theorem renewBlock_pos_lt_rate {s : State} (h1 : 1 ≤ s.rate.toNat)
    (h : s.pos.toNat ≤ s.rate.toNat) : (renewBlock s).pos.toNat < s.rate.toNat := by
  rw [renewBlock_pos]
  split
  · exact h1
  next hne => exact lt_of_le_of_ne h fun e => hne (BitVec.eq_of_toNat_eq e)

/-- The pre-permute's condition, in the values of the registers (R61). -/
theorem prePermutes_iff {s : State} (h : 1 ≤ s.rate.toNat) :
    prePermutes s = true ↔ s.suffix.getLsbD 7 = true ∧ s.pos.toNat = s.rate.toNat - 1 := by
  rw [prePermutes, Bool.and_eq_true, beq_iff_eq, ← BitVec.toNat_inj, rate_pred h,
    BitVec.getLsbD_eq_getElem]

/-- The lanes FINAL holds before the last padding bit: with the suffix, and permuted when R61 says so. -/
def suffixedLanes (i : Fin 200) (s : State) : Lanes :=
  if prePermutes s then keccakF (xorByte s.lanes i s.suffix) else xorByte s.lanes i s.suffix

theorem finalLanes_eq (i last : Fin 200) (s : State) :
    finalLanes i last s = keccakF (xorByte (suffixedLanes i s) last 0x80) := rfl

/-! ### The phase faults -/

theorem takesFault_notConfigured {i : Instr} {s : State} (hf : s.fault = false)
    (hp : s.phase = .unconf) (hi : ∀ a b, i ≠ .init a b) :
    TakesFault .notConfigured s (exec i s) := by
  rw [exec_of_unconf hf hp hi]
  exact takesFault_raiseFault _ s

theorem takesFault_wrongPhase {i : Instr} {s : State} {p : Phase} (hf : s.fault = false)
    (hp : s.phase = p) (hw : OutOfPhase i p) : TakesFault .wrongPhase s (exec i s) := by
  subst hp
  rw [exec_of_outOfPhase hf hw]
  exact takesFault_raiseFault _ s

/-! ### The rules -/

/-- Settles O12: INIT with a legal rate leaves `startHash`, with any other it enters the fault. -/
theorem initFollowsItsRule : Obligations.InitFollowsItsRule := by
  refine fun a b s hf => ⟨fun ha => ?_, fun ha => ?_, decode_encode (.init a b)⟩
  · exact ⟨_, execInit_of hf ha, rfl, rfl, rfl, rfl, rfl, hf, rfl, rfl, rfl⟩
  · have hbad : ¬(1 ≤ a.toNat ∧ a.toNat ≤ 200) := by
      obtain rfl | ha := ha
      · decide
      · omega
    rw [execInit_of_illegalRate hf hbad]
    exact takesFault_raiseFault _ s

/-- ABSORB's word as R40 writes it: the operand it does not use adds nothing. -/
theorem encode_absorb (d : Byte) : encode (.absorb d) = 0x00000002 ||| d.setWidth 32 <<< 8 := by
  simp [encode, packCommand]

/-- Settles O13: ABSORB XORs its byte in, then renews the block it has filled. -/
theorem absorbFollowsItsRule : Obligations.AbsorbFollowsItsRule := by
  refine fun d s hf hb => ⟨encode_absorb d ▸ decode_encode (.absorb d),
    fun hp => takesFault_notConfigured hf hp nofun,
    fun hp => takesFault_wrongPhase hf hp trivial, fun hp => ?_⟩
  obtain ⟨-, hr, hpos⟩ := hb hp
  obtain ⟨i, hi⟩ := exists_byteIndex (n := s.pos.toNat) (by omega)
  have hp' := renewBlock_takeByte_pos_toNat d i hpos
  have hl' := renewBlock_takeByte_lanes d i hpos
  refine ⟨_, xorByte s.lanes i d, execAbsorb_of hf hp i hi, fun j => ?_, fun hmore => ?_,
    fun hfull => ?_, ?_⟩
  · rw [hi, byteAt_xorByte]
  · rw [if_neg (Nat.ne_of_lt hmore)] at hp' hl'
    exact ⟨hl', hp'⟩
  · rw [if_pos hfull] at hp' hl'
    exact ⟨hl', BitVec.eq_of_toNat_eq hp'⟩
  · simp [hf, hp]

/-- Settles O14: FINAL leaves `closeHash`, and the pre-permute's test is R61's. -/
theorem finalFollowsItsRule : Obligations.FinalFollowsItsRule := by
  refine fun s hf hb => ⟨decode_encode .final, fun hp => takesFault_notConfigured hf hp nofun,
    fun hp => takesFault_wrongPhase hf hp trivial, fun hp => ?_⟩
  obtain ⟨h1, hr, hpos⟩ := hb hp
  obtain ⟨i, hi⟩ := exists_byteIndex (n := s.pos.toNat) (by omega)
  obtain ⟨last, hlast⟩ := exists_byteIndex (n := s.rate.toNat - 1) (by omega)
  refine ⟨_, xorByte s.lanes i s.suffix, suffixedLanes i s, xorByte (suffixedLanes i s) last 0x80,
    execFinal_of hf hp i last hi ((rate_pred h1).trans hlast), fun j => ?_,
    fun h => if_pos ((prePermutes_iff h1).2 h), fun h => if_neg (h ∘ (prePermutes_iff h1).1),
    fun j => ?_, finalLanes_eq i last s, rfl, rfl, rfl, rfl, hf, rfl, rfl, rfl⟩
  · rw [hi, byteAt_xorByte]
  · rw [hlast, byteAt_xorByte]

/-- Settles O15: SQUEEZE renews a used-up block and reads below RATE. -/
theorem squeezeFollowsItsRule : Obligations.SqueezeFollowsItsRule := by
  refine fun s hf hb => ⟨decode_encode .squeeze, fun hp => takesFault_notConfigured hf hp nofun,
    fun hp => takesFault_wrongPhase hf hp trivial, fun hp => ?_⟩
  obtain ⟨h1, hr, hpos⟩ := hb hp
  have hread := renewBlock_pos_lt_rate h1 hpos
  obtain ⟨i, hi⟩ := exists_byteIndex (n := (renewBlock s).pos.toNat) (by omega)
  refine ⟨_, i, execSqueeze_of hf hp i hi, fun he => ?_, fun hne => ?_, hi ▸ hread,
    hi ▸ pos_succ hread, ?_⟩
  · simp [← hi, renewBlock_of_eq he]
  · simp [← hi, renewBlock_of_ne hne]
  · simp [hf, hp]

end Sys2Proof.Machine
end

section
/-! What a sequence of commands leaves and how many permutations it performs: INIT and ABSORBs against
the block loop (41_sponge.md R64), FINAL, and SQUEEZEs (R67). -/

namespace Sys2Proof.Machine

/-! ### Sequences -/

theorem performAll_cons_of {i : Instr} {s t : State} (h : exec i s = .next t) (is : List Instr) :
    performAll (i :: is) s = performAll is t := by
  rw [performAll_cons, h]

theorem totalWork_cons_of {i : Instr} {s t : State} (h : exec i s = .next t) (is : List Instr) :
    totalWork (i :: is) s = work i s + totalWork is t := by
  rw [totalWork, h]

/-! ### The block loop, one message byte more -/

/-- One more of `L` bytes: the byte at position R − 1 completes a block. -/
theorem succ_div_and_mod {R : Nat} (hR : 1 ≤ R) (L : Nat) :
    (L + 1) / R = L / R + (if L % R + 1 = R then 1 else 0) ∧
      (L + 1) % R = if L % R + 1 = R then 0 else L % R + 1 := by
  have hlt : L % R < R := Nat.mod_lt L hR
  have hdm : L % R + R * (L / R) = L := Nat.mod_add_div L R
  rw [Nat.div_mod_unique hR]
  split
  · rw [Nat.mul_add]
    omega
  · simp only [Nat.add_zero]
    omega

theorem length_snoc_mod {R : Nat} (hR : 1 ≤ R) (m : List Byte) (d : Byte) :
    (m ++ [d]).length % R = if m.length % R + 1 = R then 0 else m.length % R + 1 := by
  rw [List.length_append, List.length_singleton, (succ_div_and_mod hR _).2]

/-- A message byte more is an XOR, and a permutation when it completes a block (R64). -/
theorem absorbMessage_snoc {R : Nat} (hR : 1 ≤ R) (m : List Byte) (d : Byte) (i : Fin 200)
    (hi : i.val = m.length % R) :
    absorbMessage R (m ++ [d]) =
      if m.length % R + 1 = R then keccakF (xorByte (absorbMessage R m) i d)
      else xorByte (absorbMessage R m) i d := by
  have hlen : m.length = R * (m.length / R) + i.val := by rw [hi, Nat.div_add_mod]
  rw [absorbMessage, List.length_append, List.length_singleton, (succ_div_and_mod hR _).1]
  split
  next hfull => exact absorbBlocks_snoc_full _ m _ d i hlen (hi ▸ hfull)
  next => exact absorbBlocks_snoc _ m _ d i hlen

/-! ### After INIT and ABSORBs -/

/-- The state of an engine that has absorbed `m` since an INIT `r` `suffix`: R64's right-hand side. -/
structure Absorbed (r suffix : Byte) (m : List Byte) (s : State) : Prop where
  fault : s.fault = false
  phase : s.phase = .absorb
  rate : s.rate = r
  suffix : s.suffix = suffix
  pos : s.pos.toNat = m.length % r.toNat
  lanes : s.lanes = absorbMessage r.toNat m

/-- INIT starts with the empty message (R59). -/
theorem absorbed_startHash {r suffix : Byte} {s : State} (hf : s.fault = false) :
    Absorbed r suffix [] (respond 0 (startHash r suffix s)) where
  fault := hf
  phase := rfl
  rate := rfl
  suffix := rfl
  pos := (Nat.zero_mod _).symm
  lanes := by
    rw [absorbMessage, List.length_nil, Nat.zero_div, absorbBlocks, xorBlock_nil]
    rfl

section
variable {r suffix : Byte} (hr : 1 ≤ r.toNat ∧ r.toNat ≤ 200)
include hr

theorem Absorbed.pos_lt {m : List Byte} {s : State} (h : Absorbed r suffix m s) :
    s.pos.toNat < s.rate.toNat := by
  rw [h.pos, h.rate]
  exact Nat.mod_lt _ hr.1

/-- The next ABSORB: its byte joins the message, and its work is the block it completes. -/
theorem Absorbed.absorb {m : List Byte} {s : State} (h : Absorbed r suffix m s) (d : Byte) :
    ∃ t, exec (.absorb d) s = .next t ∧ Absorbed r suffix (m ++ [d]) t ∧
      (m ++ [d]).length / r.toNat = m.length / r.toNat + work (.absorb d) s := by
  have hlt := h.pos_lt hr
  have hrate := congrArg BitVec.toNat h.rate
  obtain ⟨i, hi⟩ := exists_byteIndex (n := s.pos.toNat) (by omega)
  refine ⟨_, execAbsorb_of h.fault h.phase i hi, ⟨?_, ?_, ?_, ?_, ?_, ?_⟩, ?_⟩
  · simp [h.fault]
  · simp [h.phase]
  · simp [h.rate]
  · simp [h.suffix]
  · rw [respond_pos, renewBlock_takeByte_pos_toNat d i hlt, length_snoc_mod hr.1, h.pos, hrate]
  · rw [respond_lanes, renewBlock_takeByte_lanes d i hlt,
      absorbMessage_snoc hr.1 m d i (hi.symm.trans h.pos), h.pos, hrate, h.lanes]
  · rw [List.length_append, List.length_singleton, (succ_div_and_mod hr.1 _).1]
    simp only [work, h.fault, h.phase, pos_succ_eq_rate_iff hlt, h.pos, hrate, true_and]

/-- The ABSORBs of a further message `m'`. -/
theorem Absorbed.absorbs (m' : List Byte) {m : List Byte} {s : State}
    (h : Absorbed r suffix m s) :
    ∃ t, performAll (m'.map Instr.absorb) s = .next t ∧ Absorbed r suffix (m ++ m') t ∧
      (m ++ m').length / r.toNat =
        m.length / r.toNat + totalWork (m'.map Instr.absorb) s := by
  induction m' generalizing m s with
  | nil => exact ⟨s, rfl, by rwa [List.append_nil], by rw [List.append_nil]; rfl⟩
  | cons d m' ih =>
    obtain ⟨u, hu, hAbs, hwork⟩ := h.absorb hr d
    obtain ⟨t, ht, hAbs', hwork'⟩ := ih hAbs
    rw [List.append_assoc, List.singleton_append] at hAbs' hwork'
    refine ⟨t, (performAll_cons_of hu _).trans ht, hAbs', ?_⟩
    rw [hwork', hwork, List.map_cons, totalWork_cons_of hu, Nat.add_assoc]

/-- INIT and the ABSORBs of `m`, from any state with FAULT = 0 (R64). -/
theorem performAll_init_absorbs (m : List Byte) {s : State} (hf : s.fault = false) :
    ∃ t, performAll (.init r suffix :: m.map Instr.absorb) s = .next t ∧ Absorbed r suffix m t ∧
      totalWork (.init r suffix :: m.map Instr.absorb) s = m.length / r.toNat := by
  have hinit := execInit_of (b := suffix) hf hr
  obtain ⟨t, ht, hAbs, hwork⟩ := (absorbed_startHash hf).absorbs hr m
  refine ⟨t, (performAll_cons_of hinit _).trans ht, hAbs, ?_⟩
  rw [List.nil_append, List.length_nil, Nat.zero_div, Nat.zero_add] at hwork
  rw [totalWork_cons_of hinit, hwork, work, Nat.zero_add]

/-! ### FINAL -/

/-- FINAL after a message: the lanes are those of the block sponge's padding (R61). -/
theorem Absorbed.final {m : List Byte} {s : State} (h : Absorbed r suffix m s) :
    ∃ (t : State) (p last : Fin 200), p.val = m.length % r.toNat ∧ last.val = r.toNat - 1 ∧
      exec .final s = .next t ∧ t.fault = false ∧ t.phase = .squeeze ∧ t.rate = r ∧ t.pos = 0 ∧
      t.lanes = padBlock suffix p last (absorbMessage r.toNat m) := by
  have hlt := h.pos_lt hr
  obtain ⟨hf, hp, rfl, rfl, hpos, hl⟩ := h
  obtain ⟨p, hi⟩ := exists_byteIndex (n := s.pos.toNat) (by omega)
  obtain ⟨last, hlast⟩ := exists_byteIndex (n := s.rate.toNat - 1) (by omega)
  refine ⟨_, p, last, hi.symm.trans hpos, hlast.symm,
    execFinal_of hf hp p last hi ((rate_pred hr.1).trans hlast), hf, rfl, rfl, rfl, ?_⟩
  have hpre : prePermutes s = true ↔ s.suffix[7] = true ∧ p = last := by
    rw [prePermutes_iff hr.1, hi, hlast, ← Fin.ext_iff, BitVec.getLsbD_eq_getElem]
  show finalLanes p last s = _
  rw [finalLanes, padBlock, ← hl]
  simp only [hpre]

/-- FINAL's work (R91), in the terms of R67. -/
theorem Absorbed.work_final {m : List Byte} {s : State} (h : Absorbed r suffix m s) :
    work .final s =
      1 + (if suffix.getLsbD 7 = true ∧ m.length % r.toNat = r.toNat - 1 then 1 else 0) := by
  obtain ⟨hf, hp, rfl, rfl, hpos, -⟩ := h
  simp only [work, hf, hp, and_self, if_true, prePermutes_iff hr.1, hpos]
  split <;> rfl

end

/-- Settles O46: ABSORB by ABSORB, the engine holds what the block loop leaves. -/
theorem byteAbsorptionIsBlockAbsorption : Obligations.ByteAbsorptionIsBlockAbsorption := by
  intro r suffix m s h1 h200 hf
  obtain ⟨t, ht, hAbs, hwork⟩ := performAll_init_absorbs ⟨h1, h200⟩ m hf
  exact ⟨t, ht, hAbs.lanes, hAbs.pos, hAbs.rate, hAbs.suffix, hAbs.phase, hAbs.fault, hwork⟩

/-! ### SQUEEZEs -/

/-- A SQUEEZE within R25's bounds: where it leaves POS, and what it keeps. -/
theorem execSqueeze_next {s : State} (hf : s.fault = false) (hp : s.phase = .squeeze)
    (hb : s.SqueezeBounds) :
    ∃ t, exec .squeeze s = .next t ∧ t.fault = false ∧ t.phase = .squeeze ∧ t.rate = s.rate ∧
      t.pos.toNat = (renewBlock s).pos.toNat + 1 := by
  obtain ⟨h1, h200, hle⟩ := hb hp
  have hread := renewBlock_pos_lt_rate h1 hle
  obtain ⟨i, hi⟩ := exists_byteIndex (n := (renewBlock s).pos.toNat) (by omega)
  refine ⟨_, execSqueeze_of hf hp i hi, ?_, ?_, ?_, pos_succ hread⟩
  · simp [hf]
  · simp [hp]
  · simp

/-- SQUEEZEs permute once for each block begun after the one they start in (R67). -/
theorem totalWork_squeezes (n : Nat) {s : State} (hf : s.fault = false) (hp : s.phase = .squeeze)
    (hb : s.SqueezeBounds) :
    totalWork (List.replicate n .squeeze) s = (s.pos.toNat + n - 1) / s.rate.toNat := by
  induction n generalizing s with
  | zero =>
    obtain ⟨h1, -, hle⟩ := hb hp
    exact (Nat.div_eq_of_lt (by omega)).symm
  | succ n ih =>
    obtain ⟨t, ht, hft, hpt, hrt, hpos⟩ := execSqueeze_next hf hp hb
    obtain ⟨h1, h200, hle⟩ := hb hp
    have hbt : t.SqueezeBounds := fun _ => by
      rw [hrt, hpos]
      exact ⟨h1, h200, renewBlock_pos_lt_rate h1 hle⟩
    rw [List.replicate_succ, totalWork_cons_of ht, ih hft hpt hbt, hpos, hrt]
    by_cases he : s.pos = s.rate
    · simp only [work, hf, hp, he, renewBlock_of_eq he, and_self, if_true]
      rw [Nat.add_comm 1, ← Nat.add_div_right _ h1]
      congr 1
      change 0 + 1 + n - 1 + _ = _
      omega
    · simp only [work, he, renewBlock_of_ne he, and_false, if_false, Nat.zero_add]
      congr 1
      omega

/-- Settles O52: the work of INIT and the ABSORBs, of FINAL and of the SQUEEZEs, added up. -/
theorem permutationCountOfAHash : Obligations.PermutationCountOfAHash := by
  intro r suffix m n s h1 h200 hf
  obtain ⟨t, ht, hAbs, hwork⟩ := performAll_init_absorbs (suffix := suffix) ⟨h1, h200⟩ m hf
  obtain ⟨u, -, -, -, -, hu, hfu, hpu, hru, hpos, -⟩ := hAbs.final ⟨h1, h200⟩
  have hsq : totalWork (List.replicate n .squeeze) u = (n - 1) / r.toNat := by
    have hb : u.SqueezeBounds := fun _ => by
      rw [hru, hpos]
      exact ⟨h1, h200, Nat.zero_le _⟩
    rw [totalWork_squeezes n hfu hpu hb, hru, hpos]
    congr 1
    simp
  rw [hashSequence, ← List.cons_append, (performAll_append_of ht).2, hwork, totalWork_cons_of hu,
    hAbs.work_final ⟨h1, h200⟩, hsq]
  cases n with
  | zero => simp [Nat.add_assoc]
  | succ n =>
    have hq : (n + 1 + r.toNat - 1) / r.toNat - 1 = (n + 1 - 1) / r.toNat := by
      rw [show n + 1 + r.toNat - 1 = n + r.toNat by omega, Nat.add_div_right _ h1]
      rfl
    rw [if_neg (Nat.succ_ne_zero n), hq]
    omega

end Sys2Proof.Machine
end

section
/-! FINAL's suffix and padding are the bits of the suffix and pad10*1 (41_sponge.md R61, R65): the
padded bits are whole bytes, and absorbing those bytes is XORing the suffix and 0x80 in. -/

namespace Sys2Proof.Machine

/-! ### Bits and bytes -/

@[simp] theorem byteBits_length (b : Byte) : (byteBits b).length = 8 := by simp [byteBits]

theorem flatMap_byteBits_length (l : List Byte) : (l.flatMap byteBits).length = 8 * l.length := by
  induction l with
  | nil => rfl
  | cons b l ih => simp [ih]; omega

theorem ofBoolListLE_byteBits (b : Byte) :
    BitVec.ofBoolListLE [b.getLsbD 0, b.getLsbD 1, b.getLsbD 2, b.getLsbD 3, b.getLsbD 4,
      b.getLsbD 5, b.getLsbD 6, b.getLsbD 7] = b := by
  refine BitVec.eq_of_getLsbD_eq fun k hk => ?_
  replace hk : k < 8 := hk
  rw [BitVec.getLsbD_ofBoolListLE]
  interval_cases k <;> rfl

/-- Reading the bits of bytes as bytes gives the bytes. -/
theorem bytesOfBits_flatMap_byteBits (l : List Byte) : bytesOfBits (l.flatMap byteBits) = l := by
  induction l with
  | nil => rfl
  | cons b l ih => exact congrArg₂ List.cons (ofBoolListLE_byteBits b) ih

theorem flatMap_byteBits_replicate_zero (n : Nat) :
    (List.replicate n (0 : Byte)).flatMap byteBits = List.replicate (8 * n) false := by
  rw [List.flatMap_replicate, show byteBits 0 = List.replicate 8 false from rfl,
    List.flatten_replicate_replicate, Nat.mul_comm]

theorem byteBits_0x80 : byteBits 0x80 = List.replicate 7 false ++ [true] := rfl

/-- Setting bit 7 of a byte that has it clear. -/
theorem byteBits_xor_0x80 {b : Byte} {bits : List Bool} (h : byteBits b = bits ++ [false]) :
    byteBits (b ^^^ 0x80) = bits ++ [true] := by
  have hsnoc (c : Byte) : byteBits c = (List.range 7).map c.getLsbD ++ [c.getLsbD 7] := rfl
  rw [hsnoc, List.append_singleton_inj] at h
  obtain ⟨hlow, h7⟩ := h
  rw [hsnoc, ← hlow, List.append_singleton_inj]
  refine ⟨List.map_congr_left fun k hk => ?_, ?_⟩
  · rw [List.mem_range] at hk
    interval_cases k <;> simp
  · rw [BitVec.getLsbD_xor, h7]
    rfl

/-! ### The suffix byte -/

theorem toNat_ne_zero_of_ne {s : Byte} (hs : s ≠ 0) : s.toNat ≠ 0 := fun e =>
  hs (BitVec.eq_of_toNat_eq e)

theorem log2_le_seven {s : Byte} (hs : s ≠ 0) : s.toNat.log2 ≤ 7 :=
  Nat.le_of_lt_succ ((Nat.log2_lt (toNat_ne_zero_of_ne hs)).2 s.isLt)

/-- A byte's highest set bit is bit 7 exactly when bit 7 is set. -/
theorem getLsbD_seven_iff {s : Byte} (hs : s ≠ 0) : s.getLsbD 7 = true ↔ s.toNat.log2 = 7 := by
  have hlt := s.isLt
  rw [← BitVec.msb_eq_getLsbD_last s, BitVec.msb_eq_decide, decide_eq_true_eq,
    Nat.log2_eq_iff (toNat_ne_zero_of_ne hs)]
  omega

/-- The bits of a suffix byte: s[k−1:0], then bit k, which is pad10*1's first bit, then nothing (R65). -/
theorem byteBits_eq_suffixBits {s : Byte} (hs : s ≠ 0) :
    byteBits s = suffixBits s ++ true :: List.replicate (7 - s.toNat.log2) false := by
  have hle := log2_le_seven hs
  have hk : s.getLsbD s.toNat.log2 = true := Nat.testBit_log2 (toNat_ne_zero_of_ne hs)
  have habove (j : Nat) : s.getLsbD (s.toNat.log2 + 1 + j) = false :=
    Nat.testBit_lt_two_pow (Nat.lt_log2_self.trans_le (Nat.pow_le_pow_right (by decide) (by omega)))
  have hsplit : List.range 8 = List.range (s.toNat.log2 + 1 + (7 - s.toNat.log2)) :=
    congrArg List.range (by omega)
  rw [byteBits, hsplit, List.range_add, List.range_succ]
  simp [suffixBits, hk, habove, Function.comp_def]

/-! ### The padded bits as bytes -/

/-- pad10*1 holds the fewest zeros that complete the block (R65). -/
theorem pad101_eq {x m z : Nat} (hz : z < x) (h : x ∣ m + 2 + z) :
    pad101 x m = true :: List.replicate z false ++ [true] := by
  have hlt : (m + 2) % x < x := Nat.mod_lt _ (by omega)
  have hcount : (x - (m + 2) % x) % x = z := by
    have hmod : ((m + 2) % x + z) % x = 0 := by
      rw [Nat.mod_add_mod]
      exact Nat.mod_eq_zero_of_dvd h
    by_cases h0 : (m + 2) % x = 0
    · rw [h0, Nat.zero_add, Nat.mod_eq_of_lt hz] at hmod
      rw [h0, hmod, Nat.sub_zero, Nat.mod_self]
    · rw [Nat.mod_eq_of_lt (by omega)]
      by_cases hlow : (m + 2) % x + z < x
      · rw [Nat.mod_eq_of_lt hlow] at hmod
        omega
      · rw [Nat.mod_eq_sub_mod (by omega), Nat.mod_eq_of_lt (by omega)] at hmod
        omega
  rw [pad101, hcount]

theorem paddedBits_eq {R : Nat} {s : Byte} (m : List Byte) {z : Nat} (hz : z < 8 * R)
    (h : 8 * R ∣ 8 * m.length + s.toNat.log2 + 2 + z) :
    paddedBits R s m =
      m.flatMap byteBits ++ (suffixBits s ++ true :: List.replicate z false ++ [true]) := by
  have hlen : (m.flatMap byteBits ++ suffixBits s).length = 8 * m.length + s.toNat.log2 := by
    rw [List.length_append, flatMap_byteBits_length]
    simp [suffixBits]
  rw [paddedBits, hlen, pad101_eq hz h]
  simp

/-- The suffix byte and the last padding bit in two bytes, `j` zero bytes apart. -/
theorem bytesOfBits_paddedBits_apart {R : Nat} {s : Byte} (hs : s ≠ 0) (m : List Byte) {j : Nat}
    (hj : 8 * j + 14 - s.toNat.log2 < 8 * R) (h : R ∣ m.length + 2 + j) :
    bytesOfBits (paddedBits R s m) = m ++ [s] ++ List.replicate j 0 ++ [0x80] := by
  have hle := log2_le_seven hs
  have hzeros : 8 * j + 14 - s.toNat.log2 = 7 - s.toNat.log2 + 8 * j + 7 := by omega
  have hdvd : 8 * R ∣ 8 * m.length + s.toNat.log2 + 2 + (8 * j + 14 - s.toNat.log2) := by
    have hlen : 8 * m.length + s.toNat.log2 + 2 + (8 * j + 14 - s.toNat.log2) =
        8 * (m.length + 2 + j) := by omega
    exact hlen ▸ Nat.mul_dvd_mul_left 8 h
  have hbits : paddedBits R s m = (m ++ [s] ++ List.replicate j 0 ++ [0x80]).flatMap byteBits := by
    rw [paddedBits_eq m hj hdvd, hzeros]
    simp only [List.flatMap_append, List.flatMap_singleton, flatMap_byteBits_replicate_zero,
      byteBits_eq_suffixBits hs, byteBits_0x80]
    simp only [List.replicate_add, List.append_assoc, List.cons_append]
  rw [hbits, bytesOfBits_flatMap_byteBits]

/-- The suffix byte and the last padding bit in one byte. -/
theorem bytesOfBits_paddedBits_together {R : Nat} {s : Byte} (hs : s ≠ 0) (m : List Byte)
    (h7 : s.toNat.log2 < 7) (hR : 1 ≤ R) (h : R ∣ m.length + 1) :
    bytesOfBits (paddedBits R s m) = m ++ [s ^^^ 0x80] := by
  have hdvd : 8 * R ∣ 8 * m.length + s.toNat.log2 + 2 + (6 - s.toNat.log2) := by
    have hlen : 8 * m.length + s.toNat.log2 + 2 + (6 - s.toNat.log2) = 8 * (m.length + 1) := by
      omega
    exact hlen ▸ Nat.mul_dvd_mul_left 8 h
  have hsuffix : byteBits s =
      suffixBits s ++ true :: List.replicate (6 - s.toNat.log2) false ++ [false] := by
    have hcount : 7 - s.toNat.log2 = 6 - s.toNat.log2 + 1 := by omega
    rw [byteBits_eq_suffixBits hs, hcount, List.replicate_succ']
    simp
  have hbits : paddedBits R s m = (m ++ [s ^^^ 0x80]).flatMap byteBits := by
    rw [paddedBits_eq m (by omega) hdvd, List.flatMap_append, List.flatMap_singleton,
      byteBits_xor_0x80 hsuffix]
  rw [hbits, bytesOfBits_flatMap_byteBits]

/-! ### Absorbing the padding -/

/-- Zero bytes that complete no block advance the position. -/
theorem length_append_zeros_mod {R : Nat} (m : List Byte) {j : Nat} (h : m.length % R + j < R) :
    (m ++ List.replicate j (0 : Byte)).length % R = m.length % R + j := by
  rw [List.length_append, List.length_replicate, ← Nat.mod_add_mod, Nat.mod_eq_of_lt h]

/-- Zero bytes that complete no block leave the lanes as they are. -/
theorem absorbMessage_append_zeros {R : Nat} (h1 : 1 ≤ R) (hR : R ≤ 200) (m : List Byte) {j : Nat}
    (h : m.length % R + j < R) : absorbMessage R (m ++ List.replicate j 0) = absorbMessage R m := by
  induction j with
  | zero => rw [List.replicate_zero, List.append_nil]
  | succ j ih =>
    have hlen := length_append_zeros_mod m (Nat.lt_of_succ_lt h)
    obtain ⟨i, hi⟩ := exists_byteIndex (n := m.length % R + j) (by omega)
    rw [List.replicate_succ', ← List.append_assoc,
      absorbMessage_snoc h1 _ _ i (hi.symm.trans hlen.symm), hlen, if_neg (by omega),
      xorByte_zero, ih (Nat.lt_of_succ_lt h)]

/-- The byte that completes the block, zero bytes before it. -/
theorem absorbMessage_zeros_last {R : Nat} (h1 : 1 ≤ R) (m : List Byte) {j : Nat} (d : Byte)
    {last : Fin 200} (hlast : last.val = R - 1) (h : m.length % R + j + 1 = R) :
    absorbMessage R (m ++ List.replicate j 0 ++ [d]) =
      keccakF (xorByte (absorbMessage R m) last d) := by
  have hR : R ≤ 200 := by omega
  have hlen := length_append_zeros_mod m (show m.length % R + j < R by omega)
  rw [absorbMessage_snoc h1 _ d last (by omega), if_pos (by omega),
    absorbMessage_append_zeros h1 hR m (by omega)]

/-- XORing two bytes in at one position is XORing their XOR in. -/
theorem xorByte_xorByte (A : Lanes) (i : Fin 200) (v w : Byte) :
    xorByte (xorByte A i v) i w = xorByte A i (v ^^^ w) := by
  refine lanes_ext_bytes fun j => ?_
  simp only [byteAt_xorByte]
  split
  · rw [BitVec.xor_assoc]
  · rfl

section
variable {R : Nat} {s : Byte} {m : List Byte} {p last : Fin 200}

theorem padBlock_of_prePermute (h7 : s.getLsbD 7 = true) (hp : p = last) (A : Lanes) :
    padBlock s p last A = keccakF (xorByte (keccakF (xorByte A p s)) last 0x80) := by
  have hpre : s[7] = true ∧ p = last := ⟨BitVec.getLsbD_eq_getElem _ ▸ h7, hp⟩
  rw [padBlock]
  simp only [if_pos hpre]

theorem padBlock_of_not (h : ¬(s.getLsbD 7 = true ∧ p = last)) (A : Lanes) :
    padBlock s p last A = keccakF (xorByte (xorByte A p s) last 0x80) := by
  rw [BitVec.getLsbD_eq_getElem (by decide)] at h
  rw [padBlock]
  simp only [if_neg h]

theorem padBlock_zero (A : Lanes) : padBlock 0 p last A = keccakF (xorByte A last 0x80) := by
  rw [padBlock_of_not (by simp), xorByte_zero]

variable (h1 : 1 ≤ R) (hp : p.val = m.length % R) (hlast : last.val = R - 1)
include h1 hp hlast

/-- The suffix byte leaves room in its block: 0x80 comes in a byte of its own. -/
theorem padBlock_eq_of_room (hs : s ≠ 0) (hroom : m.length % R + 1 < R) :
    padBlock s p last (absorbMessage R m) = absorbMessage R (bytesOfBits (paddedBits R s m)) := by
  have hsnoc := absorbMessage_snoc h1 m s p hp
  rw [if_neg (Nat.ne_of_lt hroom)] at hsnoc
  have hlen : (m ++ [s]).length % R = m.length % R + 1 := by
    rw [length_snoc_mod h1, if_neg (Nat.ne_of_lt hroom)]
  have hdvd : R ∣ m.length + 2 + (R - 2 - m.length % R) := by
    have hle : m.length % R ≤ m.length := Nat.mod_le _ _
    have hlen : m.length + 2 + (R - 2 - m.length % R) = m.length - m.length % R + R := by omega
    exact hlen ▸ Nat.dvd_add (Nat.dvd_sub_mod _) dvd_rfl
  have hne : p ≠ last := fun e => by
    rw [e] at hp
    omega
  rw [bytesOfBits_paddedBits_apart hs m (by omega) hdvd,
    absorbMessage_zeros_last h1 _ _ hlast (by omega), hsnoc, padBlock_of_not fun h => hne h.2]

/-- The suffix byte is the last of its block and has bit 7 set: 0x80 comes in the next block, behind
the pre-permute. -/
theorem padBlock_eq_of_prePermute (h7 : s.getLsbD 7 = true) (hs : s ≠ 0)
    (hfull : m.length % R + 1 = R) :
    padBlock s p last (absorbMessage R m) = absorbMessage R (bytesOfBits (paddedBits R s m)) := by
  have hlog : s.toNat.log2 = 7 := (getLsbD_seven_iff hs).1 h7
  have hsnoc := absorbMessage_snoc h1 m s p hp
  rw [if_pos hfull] at hsnoc
  have hlen : (m ++ [s]).length % R = 0 := by
    rw [length_snoc_mod h1, if_pos hfull]
  have hdvd : R ∣ m.length + 2 + (R - 1) := by
    have hlen' : m.length + 2 + (R - 1) = (m ++ [s]).length + R := by
      rw [List.length_append, List.length_singleton]
      omega
    exact hlen' ▸ Nat.dvd_add (Nat.dvd_of_mod_eq_zero hlen) dvd_rfl
  rw [bytesOfBits_paddedBits_apart hs m (by omega) hdvd,
    absorbMessage_zeros_last h1 _ _ hlast (by omega), hsnoc,
    padBlock_of_prePermute h7 (Fin.ext (by omega))]

/-- The suffix byte is the last of its block and has bit 7 clear: 0x80 joins it there. -/
theorem padBlock_eq_of_lastBit (h7 : s.getLsbD 7 ≠ true) (hs : s ≠ 0)
    (hfull : m.length % R + 1 = R) :
    padBlock s p last (absorbMessage R m) = absorbMessage R (bytesOfBits (paddedBits R s m)) := by
  have hlog : s.toNat.log2 < 7 :=
    lt_of_le_of_ne (log2_le_seven hs) fun e => h7 ((getLsbD_seven_iff hs).2 e)
  have hdvd : R ∣ m.length + 1 := by
    rw [Nat.dvd_iff_mod_eq_zero, (succ_div_and_mod h1 _).2, if_pos hfull]
  have hpl : p = last := Fin.ext (by omega)
  rw [bytesOfBits_paddedBits_together hs m hlog h1 hdvd, absorbMessage_snoc h1 m _ p hp,
    if_pos hfull, padBlock_of_not fun h => h7 h.1, ← hpl, xorByte_xorByte]

/-- Padding what the message left is absorbing the padded message (R65). -/
theorem padBlock_eq_absorbMessage (hs : s ≠ 0) :
    padBlock s p last (absorbMessage R m) = absorbMessage R (bytesOfBits (paddedBits R s m)) := by
  rcases Nat.lt_or_eq_of_le (Nat.mod_lt m.length h1 : m.length % R + 1 ≤ R) with hroom | hfull
  · exact padBlock_eq_of_room h1 hp hlast hs hroom
  · by_cases h7 : s.getLsbD 7 = true
    · exact padBlock_eq_of_prePermute h1 hp hlast h7 hs hfull
    · exact padBlock_eq_of_lastBit h1 hp hlast h7 hs hfull

end

/-- When FINAL permutes before the last padding bit, in the terms of R65. -/
theorem prePermutes_iff_log2 {t : State} (h : 1 ≤ t.rate.toNat) (hs : t.suffix ≠ 0) :
    prePermutes t = true ↔ t.suffix.toNat.log2 = 7 ∧ t.pos.toNat = t.rate.toNat - 1 := by
  rw [prePermutes_iff h, getLsbD_seven_iff hs]

theorem prePermutes_of_suffix_clear {t : State} (h : t.suffix.getLsbD 7 = false) :
    prePermutes t = false := by
  rw [prePermutes, ← BitVec.getLsbD_eq_getElem, h, Bool.false_and]

/-- FINAL after a message leaves what the padded message leaves in whole blocks (R65). -/
theorem Absorbed.final_lanes {r suffix : Byte} (hr : 1 ≤ r.toNat ∧ r.toNat ≤ 200) {m : List Byte}
    {s : State} (h : Absorbed r suffix m s) :
    ∃ t, exec .final s = .next t ∧ t.fault = false ∧ t.phase = .squeeze ∧ t.pos = 0 ∧
      (suffix ≠ 0 → t.lanes = absorbMessage r.toNat (bytesOfBits (paddedBits r.toNat suffix m))) ∧
      (suffix = 0 → ∀ last : Fin 200, last.val = r.toNat - 1 →
        t.lanes = keccakF (xorByte (absorbMessage r.toNat m) last 0x80)) := by
  obtain ⟨t, p, last, hp, hlast, ht, hf, hph, -, hpos, hl⟩ := h.final hr
  refine ⟨t, ht, hf, hph, hpos, fun hs => ?_, fun hs last' hlast' => ?_⟩
  · rw [hl, padBlock_eq_absorbMessage hr.1 hp hlast hs]
  · cases Fin.ext (hlast'.trans hlast.symm)
    rw [hl, hs, padBlock_zero]

/-- Settles O47: FINAL is the block sponge's padding, and that is absorbing the padded bits. -/
theorem finalIsPad101 : Obligations.FinalIsPad101 := by
  refine ⟨fun m s hf hph h1 h200 hl hpos => ?_, fun r suffix m s h1 h200 hf => ?_,
    fun R s m p last h1 _ hp hlast => ⟨padBlock_eq_absorbMessage h1 hp hlast, ?_⟩,
    fun t h => ⟨prePermutes_iff_log2 h, fun hs => prePermutes_of_suffix_clear ?_⟩⟩
  · obtain ⟨t, ht, -, hpht, hpost, hpad, hzero⟩ :=
      Absorbed.final_lanes ⟨h1, h200⟩ ⟨hf, hph, rfl, rfl, hpos, hl⟩
    exact ⟨t, ht, hpht, hpost, hpad, hl ▸ hzero⟩
  · obtain ⟨u, hu, hAbs, -⟩ := performAll_init_absorbs (suffix := suffix) ⟨h1, h200⟩ m hf
    obtain ⟨t, ht, hft, -, -, hlanes⟩ := hAbs.final_lanes ⟨h1, h200⟩
    refine ⟨t, ?_, hft, hlanes⟩
    rw [← List.cons_append, (performAll_append_of hu).1, performAll_cons_of ht]
    rfl
  · rintro rfl
    exact padBlock_zero _
  · obtain hs | hs | hs := hs <;> rw [hs] <;> rfl

end Sys2Proof.Machine
end

section
/-! Faults (60_exceptions.md R69 to R76): which words are illegal, the precise entry, and the faulted
engine, which only a reset brings back. -/

namespace Sys2Proof

/-! ### The illegal words -/

/-- The decoder answers either with a command or with Illegal, never both (R42). -/
theorem exists_illegal_iff_not_legal (w : Word) :
    (∃ why, decode w = .illegal why) ↔ ¬∃ i, decode w = .legal i := by
  cases decode w with
  | legal i => simp
  | illegal why => simp

/-- The legal words, without the command they stand for (R42). -/
theorem exists_legal_iff (w : Word) :
    (∃ i, decode w = .legal i) ↔ cmdZ1 w = 0 ∧ cmdZ2 w = 0 ∧
      (cmdOp w = 1 ∨ (cmdOp w = 2 ∧ cmdB w = 0) ∨
        ((cmdOp w = 3 ∨ cmdOp w = 4) ∧ cmdA w = 0 ∧ cmdB w = 0)) := by
  simp only [decode_eq_legal_iff, exists_and_left, exists_or, exists_eq', and_true, or_and_right]

/-- The codes no command has (R41). -/
theorem unknownCode_iff (op : BitVec 4) :
    op = 0 ∨ 5 ≤ op.toNat ↔ op ≠ 1 ∧ op ≠ 2 ∧ op ≠ 3 ∧ op ≠ 4 := by
  bv_omega

/-- The list of R41: what is left when the legal words are taken away, code by code. -/
theorem exists_illegal_iff (w : Word) :
    (∃ why, decode w = .illegal why) ↔
      cmdZ1 w ≠ 0 ∨ cmdZ2 w ≠ 0 ∨ cmdOp w = 0 ∨ 5 ≤ (cmdOp w).toNat ∨
        (cmdOp w = 2 ∧ cmdB w ≠ 0) ∨
        ((cmdOp w = 3 ∨ cmdOp w = 4) ∧ (cmdA w ≠ 0 ∨ cmdB w ≠ 0)) := by
  rw [exists_illegal_iff_not_legal, exists_legal_iff, ← or_assoc (a := cmdOp w = 0),
    unknownCode_iff]
  by_cases h1 : cmdOp w = 1
  · simp [h1, imp_iff_not_or]
  by_cases h2 : cmdOp w = 2
  · simp [h2, imp_iff_not_or]
  · simp only [h1, h2, false_and, false_or, not_false_eq_true, ne_eq, true_and]
    tauto

end Sys2Proof

namespace Sys2Proof.Machine

/-- A word that is no command raises ILLEGAL_COMMAND while FAULT = 0, in every phase (R69, R73). -/
theorem performWord_of_illegal {w : Word} {s : State} (hf : s.fault = false) {why : Illegal}
    (hd : decode w = .illegal why) :
    performWord w s = .next (raiseFault .illegalCommand s) := by
  unfold performWord
  rw [hd]
  exact unlessFaulted_of_not hf _

/-- Settles O4: the decoder's illegal words are the list, and each is refused
before any check of the phase. -/
theorem listedWordsAreIllegal : Obligations.ListedWordsAreIllegal := by
  refine fun w s hf => ⟨exists_illegal_iff w, fun hw => ?_⟩
  obtain ⟨why, hd⟩ := (exists_illegal_iff w).2 hw
  rw [performWord_of_illegal hf hd]
  exact takesFault_raiseFault _ s

/-! ### Entering the fault -/

/-- Settles O17: the phase check of an unconfigured engine, and its STATUS right after reset. -/
theorem notConfiguredBeforeInit : Obligations.NotConfiguredBeforeInit :=
  ⟨fun _ _ hf hp hi => takesFault_notConfigured hf hp hi,
    raiseFault .notConfigured State.reset, exec_of_unconf rfl rfl nofun, by decide⟩

/-- Settles O18: each of the three commands is out of phase. -/
theorem wrongPhaseIsRefused : Obligations.WrongPhaseIsRefused := fun _ hf =>
  ⟨fun hp => ⟨fun _ => takesFault_wrongPhase hf hp trivial, takesFault_wrongPhase hf hp trivial⟩,
    fun hp => takesFault_wrongPhase hf hp trivial⟩

/-- A word is turned away, or FAULT = 0 before and after it. -/
theorem performWord_turned_or_keeps_fault_clear {w : Word} {s t : State}
    (h : performWord w s = .next t) : Turned s t ∨ (s.fault = false ∧ t.fault = false) := by
  obtain ⟨-, hturned⟩ | ⟨i, -, hexec⟩ := performWord_cases h
  · exact .inl hturned
  · exact (exec_next hexec).imp_right fun ⟨hs, ht, _⟩ => ⟨hs, ht⟩

/-- Settles O19: a word that sets FAULT was turned away, and from FAULT = 0 that is one `raiseFault`. -/
theorem faultEntryIsPrecise : Obligations.FaultEntryIsPrecise := by
  intro w s t hs h ht
  rw [h]
  obtain (⟨hs', -⟩ | ⟨-, c, hc, rfl⟩) | ⟨-, ht'⟩ := performWord_turned_or_keeps_fault_clear h
  · simp [hs] at hs'
  · exact ⟨hc, takesFault_raiseFault c s⟩
  · simp [ht] at ht'

/-! ### The faulted engine -/

/-- A step that accepts a command word performs it, and the rest goes on waiting (R88). -/
theorem step_of_command {w : Word} {s : State} {rest : List Event}
    (hc : s.channel = .command w :: rest) :
    step s = performWord w { s with channel := rest } := by
  unfold step advance
  rw [hc]
  rfl

/-- A faulted engine takes the word off the channel and does nothing but respond (R75). -/
theorem step_of_fault_of_command {w : Word} {s : State} {rest : List Event}
    (hf : s.fault = true) (hc : s.channel = .command w :: rest) :
    step s = .next (ignoreCommand { s with channel := rest }) :=
  (step_of_command hc).trans (performWord_of_fault hf)

/-- Settles O20: taking the word and responding is all that `Ignores` allows. -/
theorem faultedEngineIgnoresEveryWord : Obligations.FaultedEngineIgnoresEveryWord :=
  fun _ _ _ hf hc => step_of_fault_of_command hf hc

/-- Settles O21, event by event: idling and ignored words keep the registers, a reset clears FAULT. -/
theorem onlyResetLeavesTheFault : Obligations.OnlyResetLeavesTheFault := by
  intro s t hf h
  obtain ⟨hc, rfl⟩ | ⟨w, rest, hc, -⟩ | ⟨rest, hc, rfl⟩ := step_cases h
  · simp [hf, hc]
  · rw [step_of_fault_of_command hf hc] at h
    cases h
    simp [hf, hc]
  · exact ⟨⟨fun _ => ⟨rest, hc⟩, fun _ => rfl⟩, nofun⟩

end Sys2Proof.Machine
end

section
/-! The other way of the encoding (30_encoding.md R38 to R42): the word a command comes from. -/

namespace Sys2Proof

/-- A command's word is the one it decodes from: the fields read pack to the word again. -/
theorem encode_eq_of_decode {w : Word} {i : Instr} (h : decode w = .legal i) : encode i = w := by
  obtain ⟨hz1, hz2, hrow⟩ := (decode_eq_legal_iff w i).1 h
  rw [← packCommand_fields hz1 hz2]
  obtain ⟨hop, rfl⟩ | ⟨hop, hb, rfl⟩ | ⟨hop, ha, hb, rfl⟩ | ⟨hop, ha, hb, rfl⟩ := hrow
  · rw [hop]; rfl
  · rw [hop, hb]; rfl
  · rw [hop, ha, hb]; rfl
  · rw [hop, ha, hb]; rfl

/-- A command word as a number: OP, A at 2^8 and B at 2^16 (R38). -/
theorem packCommand_eq_ofNat (op : BitVec 4) (a b : Byte) :
    packCommand op a b = BitVec.ofNat 32 (op.toNat + 256 * a.toNat + 65536 * b.toNat) := by
  have hop := op.isLt
  have ha := a.isLt
  have hb := b.isLt
  rw [word_eq_iff_fields, cmdOp_packCommand, cmdZ1_packCommand, cmdA_packCommand,
    cmdB_packCommand, cmdZ2_packCommand]
  simp only [cmdOp, cmdZ1, cmdA, cmdB, cmdZ2, ← BitVec.toNat_inj, BitVec.extractLsb'_toNat,
    BitVec.ofNat_eq_ofNat, BitVec.toNat_ofNat, Nat.shiftRight_eq_div_pow]
  omega

/-- Settles O1, with the lemma the commands' rules rest on. -/
theorem decodeInvertsEncode : Obligations.DecodeInvertsEncode := decode_encode

/-- Settles O2: the decoder reads every field, so nothing of the word is lost. -/
theorem encodeInvertsDecode : Obligations.EncodeInvertsDecode := fun _ _ h => encode_eq_of_decode h

/-- Settles O5: each word evaluated; the last two are illegal, so they are no command. -/
theorem sampleWordsDecode : Obligations.SampleWordsDecode := by
  have hzero : decode 0x00000000 = .illegal .unknownCode := by decide
  have hunused : decode 0x00010002 = .illegal .unusedOperand := by decide
  refine ⟨by decide, by decide, by decide, by decide, by decide, by decide, fun i h => ?_,
    fun i h => ?_⟩
  · rw [hzero] at h; cases h
  · rw [hunused] at h; cases h

end Sys2Proof
end

section
/-! STATUS, field by field (10_state.md R23), and reset (70_reset_and_hazards.md R84, R85). -/

namespace Sys2Proof.Machine

/-! ### STATUS -/

theorem status_phase (s : State) : s.status.extractLsb' 0 2 = s.phase.code := by
  refine BitVec.eq_of_getLsbD_eq fun k hk => ?_
  interval_cases k <;> simp [State.status]

theorem status_fault (s : State) : s.status.getLsbD 2 = s.fault := by
  simp [State.status]

theorem status_reserved (s : State) : s.status.getLsbD 3 = false := by
  simp [State.status]

theorem status_cause (s : State) : s.status.extractLsb' 4 4 = s.cause.code := by
  refine BitVec.eq_of_getLsbD_eq fun k hk => ?_
  interval_cases k <;> simp [State.status]

theorem status_pos (s : State) : s.status.extractLsb' 8 8 = s.pos := by
  refine BitVec.eq_of_getLsbD_eq fun k hk => ?_
  interval_cases k <;> simp [State.status]

theorem status_rate (s : State) : s.status.extractLsb' 16 8 = s.rate := by
  refine BitVec.eq_of_getLsbD_eq fun k hk => ?_
  interval_cases k <;> simp [State.status]

theorem status_suffix (s : State) : s.status.extractLsb' 24 8 = s.suffix := by
  refine BitVec.eq_of_getLsbD_eq fun k hk => ?_
  interval_cases k <;> simp [State.status]

/-- Settles O7: each field reads back its register, the phase and the cause by their codes. -/
theorem statusShowsTheRegisters : Obligations.StatusShowsTheRegisters := by
  refine ⟨fun s => ⟨?_, status_fault s, status_reserved s, ?_, status_pos s, status_rate s,
    status_suffix s⟩, by decide⟩
  · rw [status_phase]
    cases s.phase <;> rfl
  · rw [status_cause]
    cases s.cause <;> rfl

/-! ### Reset -/

/-- A step that takes a reset leaves the reset state, with the rest of the channel (R84). -/
theorem step_of_reset {s : State} {rest : List Event} (hc : s.channel = .reset :: rest) :
    step s = .next (resetEngine { s with channel := rest }) := by
  unfold step advance
  rw [hc]
  rfl

/-- So does one that takes a reset in the middle of a command (R85). -/
theorem step_of_resetDuring {s : State} {w : Word} {rest : List Event}
    (hc : s.channel = .resetDuring w :: rest) :
    step s = .next (resetEngine { s with channel := rest }) := by
  unfold step advance
  rw [hc]
  rfl

/-- With nothing presented the engine is idle (60_exceptions.md R83). -/
theorem step_of_idle {s : State} (hc : s.channel = []) : step s = .next s := by
  unfold step advance
  rw [hc]

/-- Settles O9: the fields of `resetEngine`. -/
theorem resetSetsEveryRegister : Obligations.ResetSetsEveryRegister := fun _ _ hc =>
  ⟨_, step_of_reset hc, rfl, rfl, rfl, rfl, rfl, rfl, rfl, status_resetEngine _, rfl, rfl⟩

/-- Settles O10: every register is written out in `State.reset`. -/
theorem resetStateIsClear : Obligations.ResetStateIsClear :=
  ⟨byteAt_zero, rfl, rfl, rfl, rfl, rfl, rfl, by decide, rfl, rfl⟩

/-- Settles O11: the abandoned word enters the reset state nowhere. -/
theorem resetAbandonsCommandInFlight : Obligations.ResetAbandonsCommandInFlight :=
  fun _ _ _ hc => step_of_resetDuring hc

end Sys2Proof.Machine
end
section
/-! KeccakF against its table form, and what the LFSR and iota can do (40_permutation.md R54 to
R58). -/

namespace Sys2Proof.Machine

/-! ### Rounds -/

/-- Iota in round i, with the LFSR where i rounds leave it, is the table's iota (R56). -/
theorem iota_eq_iotaConstant (A : Lanes) {i : Nat} {rc : Lane} (h : roundConstants[i]? = some rc) :
    iota A (lfsrNext^[7 * i] 0x01) = (iotaConstant rc A, lfsrNext^[7 * (i + 1)] 0x01) := by
  obtain ⟨hi, -⟩ := List.getElem?_eq_some_iff.1 h
  obtain ⟨rc', hrc', hiota⟩ := iotaIsTheRoundConstant A ⟨i, hi⟩
  cases hrc'.symm.trans h
  exact hiota

/-- Round i from the walk and the LFSR is the round from the closed form and the table (R57). -/
theorem keccakRound_eq_tableRound (A : Lanes) {i : Nat} {rc : Lane}
    (h : roundConstants[i]? = some rc) :
    keccakRound (A, lfsrNext^[7 * i] 0x01) = (tableRound A rc, lfsrNext^[7 * (i + 1)] 0x01) := by
  rw [keccakRound, iota_eq_iotaConstant _ h, rhoPi_eq_rhoPiClosed, tableRound]

/-- The rounds from round i on, one for each round constant left. -/
theorem keccakRounds_eq_foldl_tableRound (rcs : List Lane) (A : Lanes) (i : Nat)
    (h : roundConstants.drop i = rcs) :
    (keccakRounds rcs.length (A, lfsrNext^[7 * i] 0x01)).1 = rcs.foldl tableRound A := by
  induction rcs generalizing A i with
  | nil => rfl
  | cons rc rcs ih =>
    have hrc : roundConstants[i]? = some rc := by
      rw [← List.head?_drop, h]
      rfl
    have hrest : roundConstants.drop (i + 1) = rcs := by
      rw [← List.tail_drop, h]
      rfl
    rw [List.length_cons, keccakRounds, keccakRound_eq_tableRound A hrc, List.foldl_cons]
    exact ih _ _ hrest

/-- Settles O45: round by round, from round 0 with the LFSR at its seed. -/
theorem keccakIsItsTableForm : Obligations.KeccakIsItsTableForm := by
  intro A
  rw [keccakF]
  exact keccakRounds_eq_foldl_tableRound roundConstants A 0 rfl

/-! ### The LFSR -/

/-- A step that loses bit 7 sets bit 0, and one that loses nothing keeps what was set (R54). -/
theorem lfsrNext_ne_zero {L : Byte} (h : L ≠ 0) : lfsrNext L ≠ 0 := by
  unfold lfsrNext
  split
  next =>
    intro h0
    have hbit : (L <<< 1 ^^^ 0x71).getLsbD 0 = false := by rw [h0]; rfl
    simp at hbit
  next h7 =>
    intro h0
    refine h (BitVec.eq_of_getLsbD_eq fun k hk => ?_)
    by_cases hk7 : k = 7
    · subst hk7
      simpa using h7
    · have hbit : (L <<< 1).getLsbD (k + 1) = false := by rw [h0]; simp
      have hk8 : k + 1 < 8 := by omega
      simpa [hk8, hk] using hbit

theorem lfsrNext_iterate_ne_zero (n : Nat) : lfsrNext^[n] 0x01 ≠ 0 := by
  induction n with
  | zero => decide
  | succ n ih =>
    rw [Function.iterate_succ_apply']
    exact lfsrNext_ne_zero ih

/-- Settles O42: the LFSR is alive after any number of steps; its end is evaluated. -/
theorem lfsrStaysAliveForOnePermutation : Obligations.LfsrStaysAliveForOnePermutation :=
  ⟨fun n _ => lfsrNext_iterate_ne_zero n, by decide +kernel⟩

/-! ### Iota -/

/-- `n` steps of iota flip bits 2^j − 1 only (R55). -/
theorem iotaMask_getLsbD_eq_false (L : Byte) {n k : Nat} (h : ∀ j < n, k ≠ 2 ^ j - 1) :
    (iotaMask L n).getLsbD k = false := by
  induction n with
  | zero => simp [iotaMask]
  | succ n ih =>
    have hk : k ≠ 2 ^ n - 1 := h n (Nat.lt_succ_self n)
    have hbit : ((1 : Lane) <<< (2 ^ n - 1)).getLsbD k = false := by
      simp
      omega
    rw [iotaMask, BitVec.getLsbD_xor, ih fun j hj => h j (Nat.lt_succ_of_lt hj)]
    split
    · rw [hbit]; rfl
    · simp

/-- Iota as one XOR into A[0,0] (R55). -/
theorem iota_lanes (A : Lanes) (L : Byte) :
    (iota A L).1 = writeLane A 0 0 (laneAt A 0 0 ^^^ iotaMask L 7) :=
  congrArg Prod.fst (iota_steps A L 7)

/-- Settles O43: iota XORs a mask into lane (0,0), and the mask has no other bit. -/
theorem iotaTouchesSevenBits : Obligations.IotaTouchesSevenBits := by
  intro A L x y k hx hy _ hne
  rw [iota_lanes, laneAt_writeLane A _ (by decide) (by decide) hx hy]
  split
  next h =>
    cases h
    have hmask : (iotaMask L 7).getLsbD k = false := iotaMask_getLsbD_eq_false L fun j hj e =>
      hne ⟨rfl, rfl, by subst e; interval_cases j <;> decide⟩
    rw [BitVec.getLsbD_xor, hmask, Bool.xor_false]
  next => rfl

end Sys2Proof.Machine
end
section
/-! The step and its order: which check comes first, the one response of a command, and the channel
served in the order of issue (10_state.md R24; 20_memory.md R29, R35; 60_exceptions.md R73). -/

namespace Sys2Proof.Machine

/-! ### One word -/

/-- A legal word is performed as its command (R73). -/
theorem performWord_of_legal {w : Word} {i : Instr} (hd : decode w = .legal i) (s : State) :
    performWord w s = exec i s := by
  unfold performWord
  rw [hd]

/-- Settles O22, check by check. -/
theorem checksRunInOrder : Obligations.ChecksRunInOrder := by
  refine fun w s => ⟨fun hf => performWord_of_fault hf, fun hf why hd => ?_,
    fun _ i hd => performWord_of_legal hd s⟩
  rw [performWord_of_illegal hf hd]
  exact takesFault_raiseFault _ s

/-- A word put ahead of what waits is the word itself: it fits its 32 bits. -/
theorem step_withFetchWord_encode (s : State) (i : Instr) :
    step (s.withFetchWord 32 (encode i).toNat) = exec i s := by
  have hw : BitVec.ofNat 32 ((encode i).toNat % 2 ^ 32) = encode i := by
    rw [Nat.mod_eq_of_lt (encode i).isLt, BitVec.ofNat_toNat, BitVec.setWidth_eq]
  have hc : (s.withFetchWord 32 (encode i).toNat).channel = .command (encode i) :: s.channel := by
    rw [withFetchWord_channel, hw]
  exact (step_of_command hc).trans (performWord_of_legal (decode_encode i) s)

/-- Settles O24: a step performs the word, and the word is performed as its command. -/
theorem stepRunsTheDecodedCommand : Obligations.StepRunsTheDecodedCommand :=
  ⟨fun _ _ _ _ hc hd => (step_of_command hc).trans (performWord_of_legal hd _),
    fun _ hc => step_of_idle hc, step_withFetchWord_encode⟩

/-! ### Responses -/

/-- A command turned away answers 0x00 (R74, R75). -/
theorem Turned.responses {s t : State} (h : Turned s t) :
    t.responses = s.responses ++ [⟨0x00, t.status⟩] := by
  obtain ⟨-, -, -, -, -, -, hr, -⟩ := h.frame
  exact hr

/-- INIT, ABSORB and FINAL answer 0x00 (R24). -/
theorem exec_responses_of_ne_squeeze {i : Instr} {s t : State} (hi : i ≠ .squeeze)
    (h : exec i s = .next t) : t.responses = s.responses ++ [⟨0x00, t.status⟩] := by
  cases i with
  | init a b =>
    obtain h | ⟨-, -, -, rfl⟩ := execInit_cases h
    · exact h.responses
    · rfl
  | absorb d =>
    obtain h | ⟨-, -, -, rfl⟩ := execAbsorb_cases h
    · exact h.responses
    · simp
  | final =>
    obtain h | ⟨-, -, -, -, rfl⟩ := execFinal_cases h
    · exact h.responses
    · rfl
  | squeeze => exact absurd rfl hi

/-- A SQUEEZE is turned away, or answers the byte below the new POS (R62). -/
theorem execSqueeze_responses {s t : State} (h : exec .squeeze s = .next t) :
    Turned s t ∨ (t.fault = false ∧ ∃ i : Fin 200, i.val + 1 = t.pos.toNat ∧
      t.responses = s.responses ++ [⟨byteAt t.lanes i, t.status⟩]) := by
  obtain h | ⟨hf, -, hp, rfl⟩ := execSqueeze_cases h
  · exact .inl h
  · refine .inr ⟨by simp [hf], ⟨_, hp⟩, (pos_succ (r := 200) hp).symm, ?_⟩
    simp

/-- Every command answers once (R24). -/
theorem exec_responses {i : Instr} {s t : State} (h : exec i s = .next t) :
    ∃ d, t.responses = s.responses ++ [⟨d, t.status⟩] := by
  by_cases hi : i = .squeeze
  · subst hi
    obtain h | ⟨-, i, -, hr⟩ := execSqueeze_responses h
    · exact ⟨_, h.responses⟩
    · exact ⟨_, hr⟩
  · exact ⟨_, exec_responses_of_ne_squeeze hi h⟩

/-- A sequence's responses come behind those already given, one for each command (R35). -/
theorem performAll_responses {is : List Instr} {s t : State} (h : performAll is s = .next t) :
    ∃ rs, t.responses = s.responses ++ rs ∧ rs.length = is.length := by
  induction is generalizing s with
  | nil => cases h; exact ⟨[], (List.append_nil _).symm, rfl⟩
  | cons i is ih =>
    rw [performAll_cons] at h
    split at h
    next u hu =>
      obtain ⟨d, hd⟩ := exec_responses hu
      obtain ⟨rs, hrs, hlen⟩ := ih h
      refine ⟨⟨d, u.status⟩ :: rs, ?_, congrArg Nat.succ hlen⟩
      rw [hrs, hd, List.append_assoc, List.singleton_append]
    all_goals cases h

/-- Settles O27: the first part's state stands between the two, and each part adds its responses. -/
theorem responsesReturnInOrder : Obligations.ResponsesReturnInOrder := by
  intro is js s u h
  obtain ⟨t, ht, hu⟩ := performAll_append h
  obtain ⟨rs, hrs, hlen⟩ := performAll_responses ht
  obtain ⟨rs', hrs', hlen'⟩ := performAll_responses hu
  refine ⟨t, ht, hu, ⟨rs, hrs.symm⟩, ⟨rs', hrs'.symm⟩, ?_, ?_⟩
  · rw [hrs, List.length_append, hlen]
  · rw [hrs', List.length_append, hlen']

/-- What a word that is performed adds: one response and nothing on the channel. -/
theorem performWord_next {w : Word} {s t : State} (h : performWord w s = .next t) :
    (∃ d, t.responses = s.responses ++ [⟨d, t.status⟩]) ∧ t.channel = s.channel := by
  obtain ⟨-, hturned⟩ | ⟨i, -, hexec⟩ := performWord_cases h
  · obtain ⟨-, -, -, -, -, hc, hr, -⟩ := hturned.frame
    exact ⟨⟨_, hr⟩, hc⟩
  · exact ⟨exec_responses hexec, exec_channel hexec⟩

/-- The two kinds of response (R24): a SQUEEZE that succeeds gives a byte of S, all else 0x00. -/
theorem performWord_rdata {w : Word} {s t : State} (h : performWord w s = .next t) :
    (¬(decode w = .legal .squeeze ∧ t.fault = false) ∧
      t.responses = s.responses ++ [⟨0x00, t.status⟩]) ∨
    (decode w = .legal .squeeze ∧ t.fault = false ∧ ∃ i : Fin 200, i.val + 1 = t.pos.toNat ∧
      t.responses = s.responses ++ [⟨byteAt t.lanes i, t.status⟩]) := by
  have hfaulted (h : Turned s t) : ¬(decode w = .legal .squeeze ∧ t.fault = false) := by
    simp [h.fault]
  obtain ⟨-, hturned⟩ | ⟨i, hd, hexec⟩ := performWord_cases h
  · exact .inl ⟨hfaulted hturned, hturned.responses⟩
  by_cases hi : i = .squeeze
  · subst hi
    obtain hturned | hgiven := execSqueeze_responses hexec
    · exact .inl ⟨hfaulted hturned, hturned.responses⟩
    · exact .inr ⟨hd, hgiven⟩
  · exact .inl ⟨by simp [hd, hi], exec_responses_of_ne_squeeze hi hexec⟩

/-- Settles O23: each kind of response, with the channel as it was. -/
theorem oneResponsePerCommand : Obligations.OneResponsePerCommand := by
  intro w s t h
  obtain ⟨-, hc⟩ := performWord_next h
  obtain ⟨hno, hr⟩ | ⟨hd, hf, i, hi, hr⟩ := performWord_rdata h
  · exact ⟨0x00, hr, hc, fun _ => rfl, fun hd hf => absurd ⟨hd, hf⟩ hno⟩
  · exact ⟨_, hr, hc, fun hno => absurd ⟨hd, hf⟩ hno, fun _ _ => ⟨i, hi, rfl⟩⟩

/-! ### The channel -/

/-- Settles O25, event by event. -/
theorem waitingCommandsWaitUnchanged : Obligations.WaitingCommandsWaitUnchanged := by
  intro s t e rest hc h
  obtain ⟨hc', -⟩ | ⟨w, rest', hc', hw⟩ | ⟨rest', hc', rfl⟩ := step_cases h
  · cases hc'.symm.trans hc
  · cases hc'.symm.trans hc
    obtain ⟨⟨d, hr⟩, hrest⟩ := performWord_next hw
    exact ⟨hrest, fun _ => by simp [hr], fun hno => absurd rfl (hno w)⟩
  · obtain hc' | ⟨w, hc'⟩ := hc'
    · cases hc'.symm.trans hc
      exact ⟨rfl, nofun, fun _ => rfl⟩
    · cases hc'.symm.trans hc
      exact ⟨rfl, nofun, fun _ => rfl⟩

/-- The first of the commands presented is the one the next step performs, and the others wait. -/
theorem step_present_cons (i : Instr) (is : List Instr) {s : State} (hc : s.channel = []) :
    step (s.present (i :: is)) =
      reframed (is.map fun i => .command (encode i)) [] (exec i s) := by
  have hhead : (s.present (i :: is)).channel =
      .command (encode i) :: is.map fun i => .command (encode i) := by
    rw [present_channel, hc]
    rfl
  rw [step_of_command hhead, performWord_of_legal (decode_encode i)]
  exact exec_reframe i _ [] s

theorem present_nil (s : State) : s.present [] = s := by simp [State.present]

/-- An idle engine with commands presented is one with those words waiting. -/
theorem reframe_eq_present (is : List Instr) {s : State} (hc : s.channel = []) :
    reframe (is.map fun i => .command (encode i)) [] s = s.present is := by
  rw [State.present, hc]
  rfl

/-- Stepping through the words of a sequence performs it (R35). -/
theorem run_present (is : List Instr) {s : State} (hc : s.channel = []) :
    Host.Core.run Sys2Proof.core is.length (s.present is) = performAll is s := by
  induction is generalizing s with
  | nil => exact congrArg Host.Outcome.next (present_nil s)
  | cons i is ih =>
    rw [List.length_cons, run_succ, step_present_cons i is hc, performAll_cons]
    cases h : exec i s with
    | next t =>
      have hct : t.channel = [] := (exec_channel h).trans hc
      have hrun := ih hct
      rw [← reframe_eq_present is hct] at hrun
      exact hrun
    | fault r => rfl
    | refused r => rfl

/-- Settles O26. -/
theorem channelRunsInIssueOrder : Obligations.ChannelRunsInIssueOrder :=
  fun is _ hc => run_present is hc

end Sys2Proof.Machine
end
section
/-! What each command changes and what it leaves: the frames of the four commands, and how often a
command permutes (41_sponge.md R59 to R62; 10_state.md R18 to R21; 70_reset_and_hazards.md R91). -/

namespace Sys2Proof.Machine

/-! ### RATE, SUFFIX and PHASE -/

/-- Commands other than INIT keep RATE and SUFFIX (R18, R19). -/
theorem exec_rate_suffix {i : Instr} {s t : State} (hi : ∀ a b, i ≠ .init a b)
    (h : exec i s = .next t) : t.rate = s.rate ∧ t.suffix = s.suffix := by
  have hturned (h : Turned s t) : t.rate = s.rate ∧ t.suffix = s.suffix := by
    obtain ⟨-, hr, hs, -⟩ := h.frame
    exact ⟨hr, hs⟩
  cases i with
  | init a b => exact absurd rfl (hi a b)
  | absorb d =>
    obtain h | ⟨-, -, -, rfl⟩ := execAbsorb_cases h
    · exact hturned h
    · simp
  | final =>
    obtain h | ⟨-, -, -, -, rfl⟩ := execFinal_cases h
    · exact hturned h
    · exact ⟨rfl, rfl⟩
  | squeeze =>
    obtain h | ⟨-, -, -, rfl⟩ := execSqueeze_cases h
    · exact hturned h
    · simp

/-- Settles O28: an INIT is turned away or writes its operands, the others keep both registers. -/
theorem onlyInitWritesRateAndSuffix : Obligations.OnlyInitWritesRateAndSuffix := by
  intro i s t h
  by_cases hi : ∃ a b, i = .init a b
  · obtain ⟨a, b, rfl⟩ := hi
    obtain h | ⟨-, h1, h200, rfl⟩ := execInit_cases h
    · obtain ⟨-, hr, hs, -⟩ := h.frame
      exact .inl ⟨hr, hs⟩
    · exact .inr ⟨a, b, rfl, rfl, rfl, h1, h200⟩
  · exact .inl (exec_rate_suffix (fun a b e => hi ⟨a, b, e⟩) h)

/-- The transitions of PHASE by a command (R21). -/
theorem exec_phase {i : Instr} {s t : State} (h : exec i s = .next t) :
    t.phase = s.phase ∨ (∃ a b, i = .init a b ∧ t.phase = .absorb) ∨
      (i = .final ∧ s.phase = .absorb ∧ t.phase = .squeeze) := by
  have hturned (h : Turned s t) : t.phase = s.phase := by
    obtain ⟨-, -, -, -, hp, -⟩ := h.frame
    exact hp
  cases i with
  | init a b =>
    obtain h | ⟨-, -, -, rfl⟩ := execInit_cases h
    · exact .inl (hturned h)
    · exact .inr (.inl ⟨a, b, rfl, rfl⟩)
  | absorb d =>
    obtain h | ⟨-, -, -, rfl⟩ := execAbsorb_cases h
    · exact .inl (hturned h)
    · exact .inl (by simp)
  | final =>
    obtain h | ⟨-, hp, -, -, rfl⟩ := execFinal_cases h
    · exact .inl (hturned h)
    · exact .inr (.inr ⟨rfl, hp, rfl⟩)
  | squeeze =>
    obtain h | ⟨-, -, -, rfl⟩ := execSqueeze_cases h
    · exact .inl (hturned h)
    · exact .inl (by simp)

/-- Settles O29: an idle step keeps PHASE, a word changes it as its command does, and a reset ends
in UNCONF. -/
theorem phaseChangesAsListed : Obligations.PhaseChangesAsListed := by
  intro s t h hne
  obtain ⟨-, rfl⟩ | ⟨w, rest, hc, hw⟩ | ⟨rest, hc, rfl⟩ := step_cases h
  · exact absurd rfl hne
  · obtain ⟨-, hturned⟩ | ⟨i, hd, hexec⟩ := performWord_cases hw
    · obtain ⟨-, -, -, -, hp, -⟩ := hturned.frame
      exact absurd hp hne
    obtain hp | ⟨a, b, rfl, hp⟩ | ⟨rfl, hps, hp⟩ := exec_phase hexec
    · exact absurd hp hne
    · exact .inl ⟨w, rest, a, b, hc, hd, hp⟩
    · exact .inr (.inl ⟨w, rest, hc, hd, hps, hp⟩)
  · exact .inr (.inr ⟨rest, hc, rfl⟩)

/-! ### The fault record and the registers of a command that faults -/

/-- CAUSE stays but for a fault entry (R74). -/
theorem exec_cause {i : Instr} {s t : State} (h : exec i s = .next t) (hf : t.fault = s.fault) :
    t.cause = s.cause := by
  obtain hturned | ⟨-, -, hc, -⟩ := exec_next h
  · obtain ⟨-, -, -, -, -, -, -, -, hc⟩ := hturned.frame
    exact hc hf
  · exact hc

/-- A command that ends faulted was turned away (R74, R75). -/
theorem turned_of_fault {i : Instr} {s t : State} (h : exec i s = .next t) (hf : t.fault = true) :
    Turned s t := by
  obtain hturned | ⟨-, hf', -⟩ := exec_next h
  · exact hturned
  · simp [hf] at hf'

/-- A command that ends unfaulted was not. -/
theorem Turned.elim {s t : State} (h : Turned s t) (hf : t.fault = false) {p : Prop} : p := by
  simp [h.fault] at hf

/-- An ABSORB that does not fill its block stores to S[POS] only (R60). -/
theorem execAbsorb_byteAt_ne {d : Byte} {s t : State} (h : exec (.absorb d) s = .next t)
    (hfull : s.pos + 1 ≠ s.rate) {i : Fin 200} (hi : i.val ≠ s.pos.toNat) :
    byteAt t.lanes i = byteAt s.lanes i := by
  obtain h | ⟨-, -, hp, rfl⟩ := execAbsorb_cases h
  · obtain ⟨hl, -⟩ := h.frame
    rw [hl]
  · have hrenew : renewBlock (takeByte d ⟨s.pos.toNat, hp⟩ s) = takeByte d ⟨s.pos.toNat, hp⟩ s :=
      renewBlock_of_ne hfull
    rw [respond_lanes, hrenew, takeByte_lanes, byteAt_xorByte, if_neg hi]

/-- A SQUEEZE that does not permute stores nothing (R62). -/
theorem execSqueeze_lanes_of_ne {s t : State} (h : exec .squeeze s = .next t)
    (hne : s.pos ≠ s.rate) : t.lanes = s.lanes := by
  obtain h | ⟨-, -, -, rfl⟩ := execSqueeze_cases h
  · obtain ⟨hl, -⟩ := h.frame
    exact hl
  · rw [respond_lanes, giveByte_lanes, renewBlock_of_ne hne]

/-- What ABSORB and SQUEEZE have in common: they write S and POS, when they succeed (R60, R62). -/
theorem exec_frame_of_ne_init_of_ne_final {i : Instr} {s t : State} (hi : ∀ a b, i ≠ .init a b)
    (hi' : i ≠ .final) (h : exec i s = .next t) :
    t.rate = s.rate ∧ t.suffix = s.suffix ∧ t.phase = s.phase ∧ t.channel = s.channel ∧
      (t.fault = s.fault → t.cause = s.cause) ∧
      (t.fault = true → t.lanes = s.lanes ∧ t.pos = s.pos) := by
  obtain ⟨hr, hs⟩ := exec_rate_suffix hi h
  have hph : t.phase = s.phase := by
    obtain hp | ⟨a, b, e, -⟩ | ⟨e, -⟩ := exec_phase h
    · exact hp
    · exact absurd e (hi a b)
    · exact absurd e hi'
  refine ⟨hr, hs, hph, exec_channel h, exec_cause h, fun hf => ?_⟩
  obtain ⟨hl, -, -, hp, -⟩ := (turned_of_fault h hf).frame
  exact ⟨hl, hp⟩

/-- Settles O30: the common frame, and what each stores. -/
theorem absorbAndSqueezeFrame : Obligations.AbsorbAndSqueezeFrame := by
  refine fun d s t => ⟨fun h => ?_, fun h => ?_⟩
  · obtain ⟨hr, hs, hp, hc, hcause, hf⟩ :=
      exec_frame_of_ne_init_of_ne_final (i := .absorb d) nofun nofun h
    exact ⟨hr, hs, hp, hc, hcause, hf, fun hfull _ hi => execAbsorb_byteAt_ne h hfull hi⟩
  · obtain ⟨hr, hs, hp, hc, hcause, hf⟩ :=
      exec_frame_of_ne_init_of_ne_final (i := .squeeze) nofun nofun h
    exact ⟨hr, hs, hp, hc, hcause, hf, execSqueeze_lanes_of_ne h⟩

/-- Settles O31: true of every command; only FINAL's RATE and SUFFIX need the kind. -/
theorem initAndFinalFrame : Obligations.InitAndFinalFrame := by
  intro i s t _ h
  refine ⟨exec_channel h, exec_cause h, fun hf => ?_, fun e => exec_rate_suffix (e ▸ nofun) h⟩
  obtain ⟨hl, hr, hs, hp, hph, -⟩ := (turned_of_fault h hf).frame
  exact ⟨hl, hr, hs, hp, hph⟩

/-! ### Bits and bytes of S -/

/-- XORing a byte into S[i] XORs its bits into the byte's place of its lane (R16). -/
theorem laneAt_xorByte_getLsbD (A : Lanes) (i : Fin 200) (d : Byte) {x y k : Nat} (hx : x < 5)
    (hy : y < 5) (hk : k < 64) :
    (laneAt (xorByte A i d) x y).getLsbD k =
      ((laneAt A x y).getLsbD k ^^
        (decide (i.val / 8 = x + 5 * y ∧ 8 * (i.val % 8) ≤ k ∧ k < 8 * (i.val % 8) + 8) &&
          d.getLsbD (k - 8 * (i.val % 8)))) := by
  obtain ⟨-, -, hwrite⟩ := laneAndByteViewsAgree A x y hx hy
  rw [xorByte, hwrite _ i k hk]
  split
  next h =>
    have hl : laneOfByte i = laneIndex x y := (laneOfByte_eq_laneIndex_iff i hx hy).2 h.1
    have hs : shiftOfByte i + k % 8 = k := by unfold shiftOfByte; omega
    have hmod : k - 8 * (i.val % 8) = k % 8 := by omega
    rw [laneAt_getLsbD_eq_byteAt A hl hs, BitVec.getLsbD_xor, hmod]
    simp [h]
  next h => simp [h]

/-- Settles O8: the byte goes into byte POS of S, and that is those bits of its lane. -/
theorem absorbedByteLandsInItsLane : Obligations.AbsorbedByteLandsInItsLane := by
  intro d s x y k hf hp hpos hfull hx hy hk
  obtain ⟨i, hi⟩ := exists_byteIndex hpos
  refine ⟨_, execAbsorb_of hf hp i hi, ?_⟩
  have hplace : i.val / 8 = x + 5 * y ↔ x = i.val / 8 % 5 ∧ y = i.val / 8 / 5 := by omega
  rw [respond_lanes, renewBlock_of_ne hfull, takeByte_lanes, laneAt_xorByte_getLsbD _ i d hx hy hk,
    hi]
  simp only [hplace, and_assoc]

/-- Settles O16: the access to S[i] is what stops, behind every check that passes. -/
theorem indexOutsideStateStops : Obligations.IndexOutsideStateStops := by
  intro d s hf
  have hfinal (hp : s.phase = .absorb) (h : 200 ≤ s.pos.toNat ∨ 200 ≤ (s.rate - 1).toNat) :
      exec .final s = .fault .byteIndexOutOfRange := by
    refine (unlessFaulted_of_not hf _).trans ((inPhase_of_eq hp nofun _).trans ?_)
    by_cases hpos : s.pos.toNat < 200
    · exact (atByte_of_lt hpos _).trans (atByte_of_ge (by omega) _)
    · exact atByte_of_ge (by omega) _
  refine ⟨fun hp hpos => ⟨?_, hfinal hp (.inl hpos)⟩, fun hp hr => hfinal hp (.inr ?_),
    fun hp hne hpos => ?_⟩
  · exact (unlessFaulted_of_not hf _).trans ((inPhase_of_eq hp nofun _).trans
      (atByte_of_ge hpos _))
  · obtain hr | hr := hr
    · rw [hr]
      decide
    · rw [rate_pred (by omega)]
      omega
  · exact (unlessFaulted_of_not hf _).trans ((inPhase_of_eq hp nofun _).trans
      (atByte_of_ge (by rwa [renewBlock_of_ne hne]) _))

/-! ### The work of a command is the number of its permutations (R91) -/

theorem work_absorb {d : Byte} {s : State} (hf : s.fault = false) (hp : s.phase = .absorb) :
    work (.absorb d) s = if s.pos + 1 = s.rate then 1 else 0 := by
  simp only [work, hf, hp, true_and]

theorem work_final {s : State} (hf : s.fault = false) (hp : s.phase = .absorb) :
    work .final s = if prePermutes s then 2 else 1 := by
  simp only [work, hf, hp, and_self, if_true]

theorem work_squeeze {s : State} (hf : s.fault = false) (hp : s.phase = .squeeze) :
    work .squeeze s = if s.pos = s.rate then 1 else 0 := by
  simp only [work, hf, hp, true_and]

/-- An ABSORB that succeeds permutes as often as its work says, after the XOR. -/
theorem execAbsorb_lanes {d : Byte} {s t : State} (h : exec (.absorb d) s = .next t)
    (hf : t.fault = false) :
    work (.absorb d) s ≤ 1 ∧ ∃ i : Fin 200, i.val = s.pos.toNat ∧
      t.lanes = keccakF^[work (.absorb d) s] (xorByte s.lanes i d) := by
  obtain h | ⟨hfs, hp, hpos, rfl⟩ := execAbsorb_cases h
  · exact h.elim hf
  rw [work_absorb hfs hp]
  refine ⟨by split <;> decide, ⟨_, hpos⟩, rfl, ?_⟩
  rw [respond_lanes, renewBlock_lanes, takeByte_pos, takeByte_rate, takeByte_lanes]
  split <;> rfl

/-- The last padding bit has a place in S only with RATE above 0. -/
theorem one_le_rate_of_pred_lt {r : Byte} (h : (r - 1).toNat < 200) : 1 ≤ r.toNat := by
  bv_omega

/-- A FINAL that succeeds permutes once at its end, and once before the last padding bit when its
work is 2. -/
theorem execFinal_lanes {s t : State} (h : exec .final s = .next t) (hf : t.fault = false) :
    1 ≤ work .final s ∧ work .final s ≤ 2 ∧ ∃ i j : Fin 200, i.val = s.pos.toNat ∧
      j.val + 1 = s.rate.toNat ∧
      t.lanes =
        keccakF (xorByte (keccakF^[work .final s - 1] (xorByte s.lanes i s.suffix)) j 0x80) := by
  obtain h | ⟨hfs, hp, hpos, hlast, rfl⟩ := execFinal_cases h
  · exact h.elim hf
  have hr := one_le_rate_of_pred_lt hlast
  have hj : (s.rate - 1).toNat + 1 = s.rate.toNat := by
    rw [rate_pred hr]
    omega
  rw [work_final hfs hp]
  refine ⟨by split <;> decide, by split <;> decide, ⟨_, hpos⟩, ⟨_, hlast⟩, rfl, hj, ?_⟩
  show finalLanes _ _ s = _
  rw [finalLanes]
  split <;> rfl

/-- A SQUEEZE that succeeds permutes as often as its work says. -/
theorem execSqueeze_lanes {s t : State} (h : exec .squeeze s = .next t) (hf : t.fault = false) :
    work .squeeze s ≤ 1 ∧ t.lanes = keccakF^[work .squeeze s] s.lanes := by
  obtain h | ⟨hfs, hp, -, rfl⟩ := execSqueeze_cases h
  · exact h.elim hf
  rw [work_squeeze hfs hp, respond_lanes, giveByte_lanes, renewBlock_lanes]
  refine ⟨by split <;> decide, ?_⟩
  split <;> rfl

/-- Settles O53, command by command. -/
theorem workCountsThePermutations : Obligations.WorkCountsThePermutations := by
  refine fun s t _ hf => ⟨fun a b h => ?_, fun d h => execAbsorb_lanes h hf,
    fun h => execFinal_lanes h hf, fun h => execSqueeze_lanes h hf⟩
  obtain h | ⟨-, -, -, rfl⟩ := execInit_cases h
  · exact h.elim hf
  · exact ⟨rfl, rfl⟩

/-- Settles O32: without a permutation ABSORB writes below RATE, SQUEEZE writes nothing, and FINAL
cannot succeed. -/
theorem capacityChangesOnlyByPermutation : Obligations.CapacityChangesOnlyByPermutation := by
  rintro i s t ⟨-, habs, -, -⟩ h hwork hi j hj
  cases hf : t.fault with
  | true =>
    obtain ⟨hl, -⟩ := (turned_of_fault h hf).frame
    rw [hl]
  | false =>
    cases i with
    | init a b => exact absurd rfl (hi a b)
    | absorb d =>
      obtain h' | ⟨hfs, hp, -⟩ := execAbsorb_cases h
      · exact h'.elim hf
      obtain ⟨-, -, hpos⟩ := habs hp
      have hfull : s.pos + 1 ≠ s.rate := fun e => by
        rw [work_absorb hfs hp, if_pos e] at hwork
        exact Nat.one_ne_zero hwork
      exact execAbsorb_byteAt_ne h hfull (by omega)
    | final =>
      obtain ⟨h1, -⟩ := execFinal_lanes h hf
      omega
    | squeeze =>
      obtain ⟨-, hl⟩ := execSqueeze_lanes h hf
      rw [hl, hwork]
      rfl

end Sys2Proof.Machine
end
section
/-! The invariants of 10_state.md R25: the reset state meets them, every step keeps them, and from a
state that meets them every step answers. -/

namespace Sys2Proof.Machine

/-- Settles O34: the reset state is UNCONF and clear. -/
theorem resetStateMeetsInvariants : Obligations.ResetStateMeetsInvariants := by
  unfold Obligations.ResetStateMeetsInvariants
  decide

/-! ### Every step keeps them -/

/-- A command turned away keeps the registers, and records its cause with its fault (R74, R75). -/
theorem Turned.inv {s t : State} (h : Turned s t) (hs : s.Inv) : t.Inv := by
  obtain ⟨hunconf, habs, hsq, hrec⟩ := hs
  obtain ⟨-, rfl⟩ | ⟨-, c, hc, rfl⟩ := h
  · exact ⟨hunconf, habs, hsq, hrec⟩
  · exact ⟨hunconf, habs, hsq, nofun, fun e => absurd e hc⟩

/-- INIT accepts the rates of R25 only, and starts at position 0. -/
theorem startHash_inv {a b : Byte} {s : State} (h1 : 1 ≤ a.toNat) (h200 : a.toNat ≤ 200)
    (hs : s.FaultRecorded) : (respond 0 (startHash a b s)).Inv :=
  ⟨nofun, fun _ => ⟨h1, h200, h1⟩, nofun, hs⟩

/-- ABSORB leaves POS below RATE, for it renews the block it fills (R60). -/
theorem takeByte_inv {d : Byte} {i : Fin 200} {s : State} (hp : s.phase = .absorb)
    (hs : s.AbsorbBounds) (hrec : s.FaultRecorded) :
    (respond 0 (renewBlock (takeByte d i s))).Inv := by
  obtain ⟨h1, h200, hpos⟩ := hs hp
  have hpos' : (renewBlock (takeByte d i s)).pos.toNat < s.rate.toNat := by
    rw [renewBlock_takeByte_pos_toNat d i hpos]
    split
    · exact h1
    · omega
  refine ⟨fun e => ?_, fun _ => ?_, fun e => ?_, ?_⟩
  · simp [hp] at e
  · simp only [respond_rate, respond_pos, renewBlock_rate, takeByte_rate]
    exact ⟨h1, h200, hpos'⟩
  · simp [hp] at e
  · simpa [State.FaultRecorded] using hrec

/-- FINAL starts the output at position 0 (R61). -/
theorem closeHash_inv {i last : Fin 200} {s : State} (hp : s.phase = .absorb)
    (hs : s.AbsorbBounds) (hrec : s.FaultRecorded) : (respond 0 (closeHash i last s)).Inv := by
  obtain ⟨h1, h200, -⟩ := hs hp
  exact ⟨nofun, nofun, fun _ => ⟨h1, h200, Nat.zero_le _⟩, hrec⟩

/-- SQUEEZE leaves POS at RATE or below, for it reads below RATE (R62). -/
theorem giveByte_inv {d : Byte} {s : State} (hp : s.phase = .squeeze)
    (hs : s.SqueezeBounds) (hrec : s.FaultRecorded) : (respond d (giveByte s)).Inv := by
  obtain ⟨h1, h200, hpos⟩ := hs hp
  have hread := renewBlock_pos_lt_rate h1 hpos
  refine ⟨fun e => ?_, fun e => ?_, fun _ => ?_, ?_⟩
  · simp [hp] at e
  · simp [hp] at e
  · simp only [respond_rate, respond_pos, giveByte_rate, giveByte_pos, pos_succ hread]
    exact ⟨h1, h200, hread⟩
  · simpa [State.FaultRecorded] using hrec

theorem exec_inv {i : Instr} {s t : State} (hs : s.Inv) (h : exec i s = .next t) : t.Inv := by
  obtain ⟨-, habs, hsq, hrec⟩ := id hs
  cases i with
  | init a b =>
    obtain h | ⟨-, h1, h200, rfl⟩ := execInit_cases h
    · exact h.inv hs
    · exact startHash_inv h1 h200 hrec
  | absorb d =>
    obtain h | ⟨-, hp, -, rfl⟩ := execAbsorb_cases h
    · exact h.inv hs
    · exact takeByte_inv hp habs hrec
  | final =>
    obtain h | ⟨-, hp, -, -, rfl⟩ := execFinal_cases h
    · exact h.inv hs
    · exact closeHash_inv hp habs hrec
  | squeeze =>
    obtain h | ⟨-, hp, -, rfl⟩ := execSqueeze_cases h
    · exact h.inv hs
    · exact giveByte_inv hp hsq hrec

/-- Settles O35: the invariants do not see the channel, so idling, a word and a reset keep them. -/
theorem stepKeepsInvariants : Obligations.StepKeepsInvariants := by
  intro s t hs h
  obtain ⟨-, rfl⟩ | ⟨w, rest, -, hw⟩ | ⟨rest, -, rfl⟩ := step_cases h
  · exact hs
  · have hs' : { s with channel := rest }.Inv := hs
    obtain ⟨-, hturned⟩ | ⟨i, -, hexec⟩ := performWord_cases hw
    · exact hturned.inv hs'
    · exact exec_inv hs' hexec
  · exact resetStateMeetsInvariants

/-! ### Every step answers -/

/-- In its own phase a command finds its bytes in S; in the others it is refused. -/
theorem exec_answers (i : Instr) {s : State} (hs : s.Inv) : ∃ t, exec i s = .next t := by
  obtain ⟨-, habs, hsq, -⟩ := hs
  cases hf : s.fault with
  | true => exact ⟨_, exec_of_fault hf i⟩
  | false =>
    by_cases hi : ∃ a b, i = .init a b
    · obtain ⟨a, b, rfl⟩ := hi
      by_cases ha : 1 ≤ a.toNat ∧ a.toNat ≤ 200
      · exact ⟨_, execInit_of hf ha⟩
      · exact ⟨_, execInit_of_illegalRate hf ha⟩
    · replace hi : ∀ a b, i ≠ .init a b := fun a b e => hi ⟨a, b, e⟩
      cases hp : s.phase with
      | unconf => exact ⟨_, exec_of_unconf hf hp hi⟩
      | absorb =>
        obtain ⟨h1, h200, hpos⟩ := habs hp
        obtain ⟨p, hpi⟩ := exists_byteIndex (n := s.pos.toNat) (by omega)
        obtain ⟨last, hl⟩ := exists_byteIndex (n := s.rate.toNat - 1) (by omega)
        cases i with
        | init a b => exact absurd rfl (hi a b)
        | absorb d => exact ⟨_, execAbsorb_of hf hp p hpi⟩
        | final => exact ⟨_, execFinal_of hf hp p last hpi ((rate_pred h1).trans hl)⟩
        | squeeze => exact ⟨_, exec_of_outOfPhase hf (hp ▸ trivial)⟩
      | squeeze =>
        cases i with
        | init a b => exact absurd rfl (hi a b)
        | absorb d => exact ⟨_, exec_of_outOfPhase hf (hp ▸ trivial)⟩
        | final => exact ⟨_, exec_of_outOfPhase hf (hp ▸ trivial)⟩
        | squeeze =>
          obtain ⟨t, ht, -⟩ := execSqueeze_next hf hp hsq
          exact ⟨t, ht⟩

theorem performWord_answers (w : Word) {s : State} (hs : s.Inv) :
    ∃ t, performWord w s = .next t := by
  cases hd : decode w with
  | legal i => rw [performWord_of_legal hd]; exact exec_answers i hs
  | illegal why =>
    cases hf : s.fault with
    | true => exact ⟨_, performWord_of_fault hf⟩
    | false => exact ⟨_, performWord_of_illegal hf hd⟩

/-- Settles O36, by the event at the head of the channel. -/
theorem noStopUnderInvariants : Obligations.NoStopUnderInvariants := by
  intro s hs
  cases hc : s.channel with
  | nil => exact ⟨s, step_of_idle hc⟩
  | cons e rest =>
    cases e with
    | command w => rw [step_of_command hc]; exact performWord_answers w hs
    | reset => exact ⟨_, step_of_reset hc⟩
    | resetDuring w => exact ⟨_, step_of_resetDuring hc⟩

end Sys2Proof.Machine
end

section
/-! S is seen only through SQUEEZE (10_state.md R28; 20_memory.md R30): what a command answers on
two states that differ in S alone differs in S alone, but for the byte a SQUEEZE gives. -/

namespace Sys2Proof.Machine

/-- The answer `r'` is a next state whenever `r` is, and differs from it in S alone. -/
def SameButLanes (r r' : Result) : Prop := ∀ t, r = .next t → ∃ B, r' = .next (withLanes B t)

theorem sameButLanes_next (t : State) (B : Lanes) :
    SameButLanes (.next t) (.next (withLanes B t)) := by
  rintro _ ⟨⟩
  exact ⟨B, rfl⟩

/-- The check of FAULT does not look at S. -/
theorem unlessFaulted_sameButLanes (A : Lanes) {s : State} {k k' : Result}
    (h : SameButLanes k k') :
    SameButLanes (unlessFaulted s k) (unlessFaulted (withLanes A s) k') := by
  cases hf : s.fault
  · rw [unlessFaulted_of_not hf, unlessFaulted_of_not (s := withLanes A s) hf]
    exact h
  · rw [unlessFaulted_of_fault hf, unlessFaulted_of_fault (s := withLanes A s) hf]
    exact sameButLanes_next (ignoreCommand s) A

/-- Nor does the phase check. -/
theorem inPhase_sameButLanes (A : Lanes) {p : Phase} {s : State} {k k' : Result}
    (h : SameButLanes k k') : SameButLanes (inPhase p s k) (inPhase p (withLanes A s) k') := by
  by_cases hu : s.phase = .unconf
  · rw [inPhase_of_unconf hu, inPhase_of_unconf (s := withLanes A s) hu]
    exact sameButLanes_next (raiseFault .notConfigured s) A
  · by_cases hp : s.phase = p
    · rwa [inPhase_of_eq hp (hp ▸ hu), inPhase_of_eq (s := withLanes A s) hp (hp ▸ hu)]
    · rw [inPhase_of_other hu hp, inPhase_of_other (s := withLanes A s) hu hp]
      exact sameButLanes_next (raiseFault .wrongPhase s) A

theorem atByte_sameButLanes {p : Byte} {k k' : Fin 200 → Result}
    (h : ∀ i : Fin 200, i.val = p.toNat → SameButLanes (k i) (k' i)) :
    SameButLanes (atByte p k) (atByte p k') := by
  by_cases hp : p.toNat < 200
  · rw [atByte_of_lt hp, atByte_of_lt hp]
    exact h _ rfl
  · rw [atByte_of_ge (Nat.le_of_not_lt hp)]
    nofun

/-- A command's answer but for S, on another S; a SQUEEZE's when it does not permute and finds the
same byte at POS. -/
theorem exec_sameButLanes (i : Instr) (s : State) (A : Lanes)
    (h : i = .squeeze → s.pos ≠ s.rate ∧
      ∀ j : Fin 200, j.val = s.pos.toNat → byteAt A j = byteAt s.lanes j) :
    SameButLanes (exec i s) (exec i (withLanes A s)) := by
  cases i with
  | init a b =>
    refine unlessFaulted_sameButLanes A ?_
    cases rateLegal a
    · exact sameButLanes_next (raiseFault .illegalRate s) A
    · exact sameButLanes_next (respond 0 (startHash a b s)) Lanes.zero
  | absorb d =>
    refine unlessFaulted_sameButLanes A (inPhase_sameButLanes A
      (atByte_sameButLanes fun i _ => ?_))
    show SameButLanes (.next (respond 0 (renewBlock (takeByte d i s))))
      (.next (respond 0 (renewBlock (takeByte d i (withLanes A s)))))
    rw [takeByte_withLanes, renewBlock_withLanes, respond_withLanes]
    exact sameButLanes_next _ _
  | final =>
    refine unlessFaulted_sameButLanes A (inPhase_sameButLanes A
      (atByte_sameButLanes fun i _ => atByte_sameButLanes fun last _ => ?_))
    show SameButLanes (.next (respond 0 (closeHash i last s)))
      (.next (respond 0 (closeHash i last (withLanes A s))))
    rw [closeHash_withLanes, respond_withLanes]
    exact sameButLanes_next _ _
  | squeeze =>
    obtain ⟨hne, hbyte⟩ := h rfl
    have hrenew : renewBlock (withLanes A s) = withLanes A s := renewBlock_of_ne hne
    refine unlessFaulted_sameButLanes A (inPhase_sameButLanes A ?_)
    rw [renewBlock_of_ne hne, hrenew]
    refine atByte_sameButLanes fun j hj => ?_
    show SameButLanes _ (.next (respond (byteAt A j) _))
    rw [hbyte j hj]
    exact sameButLanes_next (respond (byteAt s.lanes j) { s with pos := s.pos + 1 }) A

/-- Settles O33: an illegal word meets the check of FAULT only, a legal one is its command. -/
theorem stateIsSeenOnlyThroughSqueeze : Obligations.StateIsSeenOnlyThroughSqueeze := by
  intro w s t A hsq h
  cases hd : decode w with
  | legal i =>
    rw [performWord_of_legal hd] at h ⊢
    exact exec_sameButLanes i s A (fun e => hsq (e ▸ hd)) t h
  | illegal why =>
    unfold performWord at h ⊢
    rw [hd] at h ⊢
    exact unlessFaulted_sameButLanes A (sameButLanes_next (raiseFault .illegalCommand s) A) t h

end Sys2Proof.Machine
end
section
/-! What the four commands compute: the output of SQUEEZEs against the squeeze loop, whole hashes
against the block-by-block sponge, and hashes one after the other (41_sponge.md R63, R66;
70_reset_and_hazards.md R87). -/

namespace Sys2Proof.Machine

/-! ### The data of the responses a sequence adds -/

theorem newData_of_append {s t : State} {rs : List Response} (h : t.responses = s.responses ++ rs) :
    newData s t = rs.map Response.rdata := by
  rw [newData, h, List.drop_left]

theorem newData_length {is : List Instr} {s t : State} (h : performAll is s = .next t) :
    (newData s t).length = is.length := by
  obtain ⟨rs, hrs, hlen⟩ := performAll_responses h
  rw [newData_of_append hrs, List.length_map, hlen]

/-- The data of two sequences, one after the other (20_memory.md R35). -/
theorem newData_append {is js : List Instr} {s t u : State} (ht : performAll is s = .next t)
    (hu : performAll js t = .next u) : newData s u = newData s t ++ newData t u := by
  obtain ⟨rs, hrs, -⟩ := performAll_responses ht
  obtain ⟨rs', hrs', -⟩ := performAll_responses hu
  have hall : u.responses = s.responses ++ (rs ++ rs') := by rw [hrs', hrs, List.append_assoc]
  rw [newData_of_append hall, newData_of_append hrs, newData_of_append hrs', List.map_append]

/-! ### The squeeze loop, one byte at a time -/

section
variable {R : Nat} (h1 : 1 ≤ R) (h200 : R ≤ 200)
include h1 h200

/-- More rounds than the output needs add nothing. -/
theorem squeezeBlocks_of_le {n b : Nat} (h : n ≤ b) (A : Lanes) :
    squeezeBlocks R b n A = squeezeBlocks R n n A := by
  have hlen : (squeezeBlocks R b n A).length = n := squeezeBlocks_length h1 h200 b n A h
  rw [← squeezeBlocks_take h1 h200 n n b n A le_rfl h le_rfl, List.take_of_length_le hlen.le]

/-- Behind the first block stands the output of the permuted state (R66). -/
theorem squeezeBlocks_drop_rate (n : Nat) (A : Lanes) :
    (squeezeBlocks R (R + n) (R + n) A).drop R = squeezeBlocks R n n (keccakF A) := by
  obtain ⟨b, hb⟩ : ∃ b, R + n = b + 1 := ⟨R + n - 1, by omega⟩
  have hfront : (frontBytes (min (R + n) R) A).length = R := by
    rw [frontBytes_length A (by omega)]
    omega
  conv => lhs; rw [hb, squeezeBlocks, ← hb]
  rw [List.drop_left' hfront, Nat.add_sub_cancel_left,
    squeezeBlocks_of_le h1 h200 (by omega : n ≤ b)]

/-- Within the first block the output is the state's bytes (R66). -/
theorem squeezeBlocks_drop_eq_cons {p n : Nat} (i : Fin 200) (hi : i.val = p) (hp : p < R)
    (hn : p < n) (A : Lanes) :
    (squeezeBlocks R n n A).drop p = byteAt A i :: (squeezeBlocks R n n A).drop (p + 1) := by
  obtain ⟨b, rfl⟩ : ∃ b, n = b + 1 := ⟨n - 1, by omega⟩
  have hfront : (frontBytes (min (b + 1) R) A).length = min (b + 1) R :=
    frontBytes_length A (by omega)
  have hlt : p < min (b + 1) R := by omega
  rw [squeezeBlocks, List.drop_append_of_le_length (by omega),
    List.drop_append_of_le_length (by omega), frontBytes_drop A i hi hlt (by omega),
    List.cons_append]

end

/-- The output still to come with POS = p: the squeeze loop's output behind its first p bytes. -/
def outputFrom (R p n : Nat) (A : Lanes) : List Byte := (squeezeBlocks R (p + n) (p + n) A).drop p

theorem outputFrom_zero_pos (R n : Nat) (A : Lanes) :
    outputFrom R 0 n A = squeezeBlocks R n n A := by
  rw [outputFrom, Nat.zero_add, List.drop_zero]

section
variable {R : Nat} (h1 : 1 ≤ R) (h200 : R ≤ 200)
include h1 h200

theorem outputFrom_none {p : Nat} (A : Lanes) : outputFrom R p 0 A = [] := by
  rw [outputFrom, Nat.add_zero]
  exact List.drop_of_length_le (squeezeBlocks_length h1 h200 p p A le_rfl).le

/-- A used-up block: the output goes on from the permuted state. -/
theorem outputFrom_rate (n : Nat) (A : Lanes) :
    outputFrom R R n A = outputFrom R 0 n (keccakF A) := by
  rw [outputFrom_zero_pos]
  exact squeezeBlocks_drop_rate h1 h200 n A

/-- A byte left in the block: it is the next byte of the output. -/
theorem outputFrom_succ {p : Nat} (i : Fin 200) (hi : i.val = p) (hp : p < R) (n : Nat)
    (A : Lanes) :
    outputFrom R p (n + 1) A = byteAt A i :: outputFrom R (p + 1) n A := by
  have hlen : p + (n + 1) = p + 1 + n := by omega
  rw [outputFrom, hlen, squeezeBlocks_drop_eq_cons h1 h200 i hi hp (by omega), outputFrom]

end

/-! ### SQUEEZEs -/

/-- The output to come is the same before and after a used-up block is renewed. -/
theorem outputFrom_renewBlock {s : State} (h1 : 1 ≤ s.rate.toNat) (h200 : s.rate.toNat ≤ 200)
    (n : Nat) :
    outputFrom s.rate.toNat (renewBlock s).pos.toNat n (renewBlock s).lanes =
      outputFrom s.rate.toNat s.pos.toNat n s.lanes := by
  by_cases he : s.pos = s.rate
  · rw [renewBlock_of_eq he, he, outputFrom_rate h1 h200]
    rfl
  · rw [renewBlock_of_ne he]

/-- A SQUEEZE within R25's bounds gives the next byte of the output and keeps the bounds (R62). -/
theorem execSqueeze_output {s : State} (hf : s.fault = false) (hp : s.phase = .squeeze)
    (hb : s.SqueezeBounds) (n : Nat) :
    ∃ (t : State) (d : Byte), exec .squeeze s = .next t ∧ t.fault = false ∧ t.phase = .squeeze ∧
      t.SqueezeBounds ∧ t.responses = s.responses ++ [⟨d, t.status⟩] ∧
      outputFrom s.rate.toNat s.pos.toNat (n + 1) s.lanes =
        d :: outputFrom t.rate.toNat t.pos.toNat n t.lanes := by
  obtain ⟨h1, h200, hle⟩ := hb hp
  have hread := renewBlock_pos_lt_rate h1 hle
  obtain ⟨i, hi⟩ := exists_byteIndex (n := (renewBlock s).pos.toNat) (by omega)
  have hpos : (giveByte s).pos.toNat = (renewBlock s).pos.toNat + 1 := pos_succ hread
  refine ⟨_, byteAt (renewBlock s).lanes i, execSqueeze_of hf hp i hi, ?_, ?_, fun _ => ?_, ?_, ?_⟩
  · simp [hf]
  · simp [hp]
  · rw [respond_rate, respond_pos, giveByte_rate, hpos]
    exact ⟨h1, h200, hread⟩
  · simp
  · rw [← outputFrom_renewBlock h1 h200, outputFrom_succ h1 h200 i hi.symm hread, respond_rate,
      respond_pos, respond_lanes, giveByte_rate, hpos, giveByte_lanes]

/-- `n` SQUEEZEs within R25's bounds give the next `n` bytes of the output (R66). -/
theorem performAll_squeezes (n : Nat) {s : State} (hf : s.fault = false) (hp : s.phase = .squeeze)
    (hb : s.SqueezeBounds) :
    ∃ t, performAll (List.replicate n .squeeze) s = .next t ∧ t.fault = false ∧
      t.phase = .squeeze ∧ t.SqueezeBounds ∧
      newData s t = outputFrom s.rate.toNat s.pos.toNat n s.lanes := by
  induction n generalizing s with
  | zero =>
    obtain ⟨h1, h200, -⟩ := hb hp
    refine ⟨s, rfl, hf, hp, hb, ?_⟩
    rw [outputFrom_none h1 h200, newData_of_append (List.append_nil _).symm, List.map_nil]
  | succ n ih =>
    obtain ⟨u, d, hu, hfu, hpu, hbu, hru, hout⟩ := execSqueeze_output hf hp hb n
    obtain ⟨t, ht, hft, hpt, hbt, hdata⟩ := ih hfu hpu hbu
    refine ⟨t, (performAll_cons_of hu _).trans ht, hft, hpt, hbt, ?_⟩
    rw [newData_append (performAll_cons_of hu []) ht, newData_of_append hru, hdata, hout]
    rfl

/-- Settles O51: `n₁` SQUEEZEs leave a state the next `n₂` go on from, with their data behind. -/
theorem squeezingIsPrefixStable : Obligations.SqueezingIsPrefixStable := by
  intro n₁ n₂ s hf hp hb
  obtain ⟨t, ht, hft, hpt, hbt, -⟩ := performAll_squeezes n₁ hf hp hb
  obtain ⟨u, hu, -⟩ := performAll_squeezes n₂ hft hpt hbt
  refine ⟨t, u, ht, hu, ?_, ?_, newData_append ht hu⟩
  · rw [List.replicate_add, (performAll_append_of ht).1, hu]
  · rw [newData_length ht, List.length_replicate]

/-! ### Whole hashes -/

theorem hashSequence_length (r suffix : Byte) (m : List Byte) (n : Nat) :
    (hashSequence r suffix m n).length = m.length + n + 2 := by
  simp only [hashSequence, List.length_cons, List.length_append, List.length_map,
    List.length_replicate]
  omega

/-- A hash is INIT, the ABSORBs and FINAL, and then its SQUEEZEs. -/
theorem hashSequence_eq_append (r suffix : Byte) (m : List Byte) (n : Nat) :
    hashSequence r suffix m n =
      (.init r suffix :: m.map Instr.absorb ++ [.final]) ++ List.replicate n .squeeze := by
  simp [hashSequence]

/-- The block sponge squeezes the padded state, by any names of the padding's positions (R63). -/
theorem blockSponge_eq {R : Nat} (h : 1 ≤ R ∧ R ≤ 200) (suffix : Byte) (m : List Byte) (n : Nat)
    {p last : Fin 200} (hp : p.val = m.length % R) (hlast : last.val = R - 1) :
    blockSponge R h suffix m n =
      squeezeBlocks R n n (padBlock suffix p last (absorbMessage R m)) := by
  have hp' : p = ⟨m.length % R, hp ▸ p.isLt⟩ := Fin.ext hp
  have hlast' : last = ⟨R - 1, hlast ▸ last.isLt⟩ := Fin.ext hlast
  rw [blockSponge, hp', hlast']

/-- INIT, the ABSORBs and FINAL, from any state with FAULT = 0, leave the state whose output is the
sponge function of the source (R63). -/
theorem performAll_upTo_final {r : Byte} (hr : 1 ≤ r.toNat ∧ r.toNat ≤ 200) (suffix : Byte)
    (m : List Byte) {s : State} (hf : s.fault = false) :
    ∃ t, performAll (.init r suffix :: m.map Instr.absorb ++ [.final]) s = .next t ∧
      t.fault = false ∧ t.phase = .squeeze ∧ t.SqueezeBounds ∧
      ∀ n, outputFrom t.rate.toNat t.pos.toNat n t.lanes = blockSponge r.toNat hr suffix m n := by
  obtain ⟨u, hu, hAbs, -⟩ := performAll_init_absorbs (suffix := suffix) hr m hf
  obtain ⟨t, p, last, hp, hlast, ht, hft, hpt, hrt, hpos, hl⟩ := hAbs.final hr
  refine ⟨t, ?_, hft, hpt, fun _ => ?_, fun n => ?_⟩
  · rw [(performAll_append_of hu).1, performAll_cons_of ht, performAll]
  · rw [hrt, hpos]
    exact ⟨hr.1, hr.2, Nat.zero_le _⟩
  · have hpos0 : t.pos.toNat = 0 := congrArg BitVec.toNat hpos
    rw [hrt, hpos0, outputFrom_zero_pos, hl, blockSponge_eq hr suffix m n hp hlast]

/-- A hash from any state with FAULT = 0: no fault, and the responses to its SQUEEZEs hold the
sponge function of the source (R63). -/
theorem performAll_hashSequence {r : Byte} (hr : 1 ≤ r.toNat ∧ r.toNat ≤ 200) (suffix : Byte)
    (m : List Byte) (n : Nat) {s : State} (hf : s.fault = false) :
    ∃ t, performAll (hashSequence r suffix m n) s = .next t ∧ t.fault = false ∧
      (newData s t).drop (m.length + 2) = blockSponge r.toNat hr suffix m n := by
  obtain ⟨u, hu, hfu, hpu, hbu, hout⟩ := performAll_upTo_final hr suffix m hf
  obtain ⟨t, ht, hft, -, -, hdata⟩ := performAll_squeezes n hfu hpu hbu
  have hhead : (newData s u).length = m.length + 2 := by
    rw [newData_length hu]
    simp
  refine ⟨t, ?_, hft, ?_⟩
  · rw [hashSequence_eq_append, (performAll_append_of hu).1, ht]
  · rw [newData_append hu ht, List.drop_left' hhead, hdata, hout]

/-- Settles O48: the run performs the hash, and the hash computes the sponge. -/
theorem commandsComputeTheSponge : Obligations.CommandsComputeTheSponge := by
  intro r suffix m n s hr hf hc
  obtain ⟨t, ht, hft, hout⟩ := performAll_hashSequence hr suffix m n hf
  have hlen := hashSequence_length r suffix m n
  refine ⟨t, ?_, hft, (performAll_channel ht).trans hc, (newData_length ht).trans hlen, hout⟩
  rw [← hlen]
  exact (run_present _ hc).trans ht

/-- Hashes one after the other, from a state with FAULT = 0 (R87). -/
theorem performAll_hashes (hashes : List (Byte × Byte × List Byte × Nat)) {s : State}
    (hr : ∀ h ∈ hashes, 1 ≤ h.1.toNat ∧ h.1.toNat ≤ 200) (hf : s.fault = false) :
    ∃ t, performAll (hashes.flatMap fun h => hashSequence h.1 h.2.1 h.2.2.1 h.2.2.2) s = .next t ∧
      t.fault = false := by
  induction hashes generalizing s with
  | nil => exact ⟨s, rfl, hf⟩
  | cons h hashes ih =>
    obtain ⟨u, hu, hfu, -⟩ :=
      performAll_hashSequence (hr h List.mem_cons_self) h.2.1 h.2.2.1 h.2.2.2 hf
    obtain ⟨t, ht, hft⟩ := ih (fun h' hh' => hr h' (List.mem_cons_of_mem _ hh')) hfu
    refine ⟨t, ?_, hft⟩
    rw [List.flatMap_cons, (performAll_append_of hu).1, ht]

/-- Settles O49: each hash ends with FAULT = 0, where the next begins. -/
theorem hostProtocolReachesNoFault : Obligations.HostProtocolReachesNoFault := by
  intro hashes s hr hf hc
  obtain ⟨t, ht, hft⟩ := performAll_hashes hashes hr hf
  exact ⟨t, (run_present _ hc).trans ht, hft⟩

/-! ### Hashes and histories -/

/-- INIT overwrites every register but the fault record: of a state with FAULT = 0 and CAUSE none it
leaves only the channel and the responses (R59). -/
theorem startHash_eq_reframe (r suffix : Byte) {s : State} (hf : s.fault = false)
    (hc : s.cause = .none) :
    respond 0 (startHash r suffix s) =
      reframe s.channel s.responses (respond 0 (startHash r suffix State.reset)) := by
  have hstart : startHash r suffix s =
      reframe s.channel s.responses (startHash r suffix State.reset) := by
    obtain ⟨lanes, rate, sfx, pos, phase, fault, cause, channel, responses⟩ := s
    cases hf
    cases hc
    simp [startHash, reframe, State.reset]
  rw [hstart, respond_reframe]

/-- A hash from any such state is the hash from reset, with that state's channel and responses. -/
theorem performAll_hashSequence_eq_reframed {r : Byte} (hr : 1 ≤ r.toNat ∧ r.toNat ≤ 200)
    (suffix : Byte) (m : List Byte) (n : Nat) {s : State} (hf : s.fault = false)
    (hc : s.cause = .none) :
    performAll (hashSequence r suffix m n) s =
      reframed s.channel s.responses (performAll (hashSequence r suffix m n) State.reset) := by
  rw [hashSequence, performAll_cons_of (execInit_of hf hr), startHash_eq_reframe r suffix hf hc,
    performAll_reframe, performAll_cons_of (execInit_of (s := State.reset) rfl hr)]

/-- Settles O50: both answers are the one from reset, behind the responses each had given. -/
theorem hashForgetsTheHistory : Obligations.HashForgetsTheHistory := by
  intro r suffix m n s s' h1 h200 hf hf' hrec hrec'
  obtain ⟨t, ht, -⟩ :=
    performAll_hashSequence (s := State.reset) ⟨h1, h200⟩ suffix m n rfl
  have hs := performAll_hashSequence_eq_reframed ⟨h1, h200⟩ suffix m n hf (hrec.1 hf)
  have hs' := performAll_hashSequence_eq_reframed ⟨h1, h200⟩ suffix m n hf' (hrec'.1 hf')
  rw [ht] at hs hs'
  exact ⟨_, _, t.responses, hs, hs', rfl, rfl⟩

end Sys2Proof.Machine
end

section
/-! Platforms (60_exceptions.md R81). -/

namespace Sys2Proof.Machine

/-- A step of engine `k` is a step of its state, put back in its place (R81). -/
theorem platformStep_eq_next_iff {k : Nat} {p q : Platform} :
    platformStep k p = .next q ↔ ∃ s t, p[k]? = some s ∧ step s = .next t ∧ q = p.set k t := by
  unfold platformStep
  cases p[k]? with
  | none => simp
  | some s => cases h : step s <;> simp [h, eq_comm]

/-- Settles O54: the step is that of the one state at `k`, and only place `k` is written. -/
theorem enginesShareNothing : Obligations.EnginesShareNothing := by
  intro k p q h
  obtain ⟨s, t, hk, ht, rfl⟩ := platformStep_eq_next_iff.1 h
  obtain ⟨hlt, -⟩ := List.getElem?_eq_some_iff.1 hk
  refine ⟨List.length_set, fun j hj => List.getElem?_set_ne hj.symm, fun p' hp' => ?_⟩
  have hk' : p'[k]? = some s := hp'.trans hk
  obtain ⟨hlt', -⟩ := List.getElem?_eq_some_iff.1 hk'
  refine ⟨p'.set k t, platformStep_eq_next_iff.2 ⟨s, t, hk', ht, rfl⟩, ?_⟩
  rw [List.getElem?_set_self hlt', List.getElem?_set_self hlt]

end Sys2Proof.Machine
end
section
/-! The assembler (30_encoding.md R43 to R47): what it gives for each line, what it refuses, and
that HASH and XOF are the sponge of their variant. -/

namespace Sys2Proof.Machine

/-! ### The check of a line -/

theorem assemble_of_wellFormed {l : AsmLine} (h : l.wellFormed = true) :
    assemble l = some l.expand := if_pos h

theorem assemble_of_not_wellFormed {l : AsmLine} (h : l.wellFormed = false) :
    assemble l = none := if_neg (by simp [h])

theorem assembleWords_of_wellFormed {l : AsmLine} (h : l.wellFormed = true) :
    assembleWords l = some (l.expand.map encode) := by
  rw [assembleWords, assemble_of_wellFormed h]
  rfl

theorem assembleWords_of_not_wellFormed {l : AsmLine} (h : l.wellFormed = false) :
    assembleWords l = none := by
  rw [assembleWords, assemble_of_not_wellFormed h]
  rfl

/-! ### The four command forms -/

/-- The word of a command whose operands fit in 8 bits, as a number. -/
theorem packCommand_ofNat (op : BitVec 4) {a b : Nat} (ha : a < 256) (hb : b < 256) :
    packCommand op (BitVec.ofNat 8 a) (BitVec.ofNat 8 b) =
      BitVec.ofNat 32 (op.toNat + 256 * a + 65536 * b) := by
  rw [packCommand_eq_ofNat, BitVec.toNat_ofNat, BitVec.toNat_ofNat, Nat.mod_eq_of_lt ha,
    Nat.mod_eq_of_lt hb]

/-- Settles O55: an accepted line is its packed word, and the check is the operands' range. -/
theorem assemblerChecksOperands : Obligations.AssemblerChecksOperands := by
  refine fun a b => ⟨fun ha hb => ?_, fun hab => ?_, fun ha => ?_, fun ha => ?_, by decide,
    by decide⟩
  · rw [assembleWords_of_wellFormed (by simp [AsmLine.wellFormed, ha, hb])]
    exact congrArg (fun w => some [w]) (packCommand_ofNat 1 ha hb)
  · exact assembleWords_of_not_wellFormed (by simpa [AsmLine.wellFormed] using hab)
  · rw [assembleWords_of_wellFormed (by simp [AsmLine.wellFormed, ha])]
    exact congrArg (fun w => some [w]) (packCommand_ofNat 2 (b := 0) ha (by decide))
  · exact assembleWords_of_not_wellFormed (by simpa [AsmLine.wellFormed] using ha)

/-- Settles O56: the six lines evaluated. -/
theorem variantsAssembleToTheirWords : Obligations.VariantsAssembleToTheirWords := by
  unfold Obligations.VariantsAssembleToTheirWords
  decide

/-- Settles O59: the lines of text evaluated. -/
theorem sampleLinesAssemble : Obligations.SampleLinesAssemble := by
  unfold Obligations.SampleLinesAssemble
  decide

/-! ### Hexadecimal digits -/

/-- The digit of a value, with a capital letter or a small one. -/
def hexDigit (d : Fin 16 × Bool) : Char :=
  (if d.2 then "0123456789ABCDEF".toList else "0123456789abcdef".toList).getD d.1.val '0'

theorem isHexDigit_hexDigit : ∀ d, isHexDigit (hexDigit d) = true := by decide

theorem digitValue_hexDigit : ∀ d, digitValue (hexDigit d) = d.1.val := by decide

/-- Two digits for each byte, the high one first (R44). -/
def hexDigits (ps : List ((Fin 16 × Bool) × (Fin 16 × Bool))) : List Char :=
  ps.flatMap fun p => [hexDigit p.1, hexDigit p.2]

theorem hexBytes_hexDigits (ps : List ((Fin 16 × Bool) × (Fin 16 × Bool))) :
    hexBytes (hexDigits ps) = ps.map fun p => BitVec.ofNat 8 (16 * p.1.1.val + p.2.1.val) := by
  induction ps with
  | nil => rfl
  | cons p ps ih =>
    rw [List.map_cons, ← ih, ← digitValue_hexDigit p.1, ← digitValue_hexDigit p.2]
    rfl

theorem wellFormed_hexDigits (ps : List ((Fin 16 × Bool) × (Fin 16 × Bool))) :
    (AsmBytes.hex (hexDigits ps)).wellFormed = true := by
  have hall : (hexDigits ps).all isHexDigit = true := by
    simp [hexDigits, isHexDigit_hexDigit]
  have heven : (hexDigits ps).length % 2 = 0 := by
    simp [hexDigits]
  simp [AsmBytes.wellFormed, hall, heven]

/-! ### The pseudo-instructions -/

theorem assemble_absorbs {bs : AsmBytes} (h : bs.wellFormed = true) :
    assemble (.absorbs bs) = some (bs.bytes.map Instr.absorb) := assemble_of_wellFormed h

theorem assemble_hash {v : Variant} {bs : AsmBytes} (hv : v.isDigest = true)
    (h : bs.wellFormed = true) :
    assemble (.hash v bs) = some (hashSequence v.rate v.suffix bs.bytes v.digestLength) :=
  assemble_of_wellFormed (by simp [AsmLine.wellFormed, hv, h])

theorem assemble_xof {v : Variant} {bs : AsmBytes} (hv : v.isDigest = false)
    (h : bs.wellFormed = true) (n : Nat) :
    assemble (.xof v bs n) = some (hashSequence v.rate v.suffix bs.bytes n) :=
  assemble_of_wellFormed (by simp [AsmLine.wellFormed, hv, h])

theorem assemble_hash_of_xof {v : Variant} (bs : AsmBytes) (hv : v.isDigest = false) :
    assemble (.hash v bs) = none :=
  assemble_of_not_wellFormed (by simp [AsmLine.wellFormed, hv])

theorem assemble_xof_of_digest {v : Variant} (bs : AsmBytes) (hv : v.isDigest = true) (n : Nat) :
    assemble (.xof v bs n) = none :=
  assemble_of_not_wellFormed (by simp [AsmLine.wellFormed, hv])

theorem isDigest_iff (v : Variant) :
    v.isDigest = true ↔ v ∈ [Variant.sha3_224, .sha3_256, .sha3_384, .sha3_512] := by
  cases v <;> decide

theorem isDigest_eq_false_iff (v : Variant) :
    v.isDigest = false ↔ v ∈ [Variant.shake128, .shake256] := by
  cases v <;> decide

/-- Settles O57, form by form. -/
theorem pseudoInstructionsExpand : Obligations.PseudoInstructionsExpand := by
  refine ⟨fun cs hcs => ?_, fun ps => ?_, fun ds hds => ?_, fun n => assemble_of_wellFormed rfl,
    fun v bs n hbs => ⟨fun hv => ?_, fun hv => ?_⟩⟩
  · rw [assemble_absorbs (by simpa [AsmBytes.wellFormed] using hcs), AsmBytes.bytes, List.map_map]
    rfl
  · show assemble (.absorbs (.hex (hexDigits ps))) = _
    rw [assemble_absorbs (wellFormed_hexDigits ps), AsmBytes.bytes, hexBytes_hexDigits,
      List.map_map]
    rfl
  · exact assemble_of_not_wellFormed (by simp [AsmLine.wellFormed, AsmBytes.wellFormed, hds])
  · have hd := (isDigest_iff v).2 hv
    refine ⟨(assemble_hash hd hbs).trans ?_, assemble_xof_of_digest bs hd n⟩
    cases v <;> rfl
  · have hx := (isDigest_eq_false_iff v).2 hv
    exact ⟨assemble_xof hx hbs n, assemble_hash_of_xof bs hx⟩

/-- A line that assembles to a hash returns the sponge of its rate and suffix (R63). -/
theorem assembled_hash_returns_sponge {l : AsmLine} {r suffix : Byte} {bytes : List Byte} {n : Nat}
    (hr : 1 ≤ r.toNat ∧ r.toNat ≤ 200) (hl : assemble l = some (hashSequence r suffix bytes n))
    {s : State} (hf : s.fault = false) :
    ∃ (is : List Instr) (t : State), assemble l = some is ∧ performAll is s = .next t ∧
      t.fault = false ∧
      (newData s t).drop (bytes.length + 2) = blockSponge r.toNat hr suffix bytes n := by
  obtain ⟨t, ht, hft, hout⟩ := performAll_hashSequence hr suffix bytes n hf
  exact ⟨_, t, hl, ht, hft, hout⟩

/-- Settles O58: each variant's line is the hash of the tuple of R46. -/
theorem standardFunctionsAreTheSponge : Obligations.StandardFunctionsAreTheSponge := by
  intro v bs n s hbs hf
  cases v with
  | shake128 =>
    exact assembled_hash_returns_sponge (r := 168) (by decide) (assemble_xof rfl hbs n) hf
  | shake256 =>
    exact assembled_hash_returns_sponge (r := 136) (by decide) (assemble_xof rfl hbs n) hf
  | sha3_224 =>
    exact assembled_hash_returns_sponge (r := 144) (by decide) (assemble_hash rfl hbs) hf
  | sha3_256 =>
    exact assembled_hash_returns_sponge (r := 136) (by decide) (assemble_hash rfl hbs) hf
  | sha3_384 =>
    exact assembled_hash_returns_sponge (r := 104) (by decide) (assemble_hash rfl hbs) hf
  | sha3_512 =>
    exact assembled_hash_returns_sponge (r := 72) (by decide) (assemble_hash rfl hbs) hf

end Sys2Proof.Machine
end
